-- ==== Sys2Proof/Word.lean ====
section
/-! DEFINITION. The data words of the CT-AES core (spec/00_scope.md R12 to R14, spec/10_state.md R20, R25). -/

namespace Sys2Proof

/-- A byte: eight bits, bit 0 the least significant (R12). -/
abbrev Byte := BitVec 8

/-- A bit-plane: one `w`-bit value, bit `k` belonging to batch lane `k` (R8, R20, R23). -/
abbrev Plane (w : Nat) := BitVec w

/-- The eight planes of one byte position, plane `j` carrying bit `j` of the byte (R21). -/
abbrev Slice (w : Nat) := Vector (Plane w) 8

/-- A BitsliceBatch or RoundKeyBitslice: 128 planes, plane `8*b + j` being bit `j` of byte `b` (R20, R21, R25). -/
abbrev Batch (w : Nat) := Vector (Plane w) 128

/-- A key-schedule word: four bytes in key order, never a 32-bit integer (R53, R142). -/
abbrev KeyWord := Vector Byte 4

/-- The vector whose entry `i` is `f i`. -/
def tabulate {α : Type} (n : Nat) (f : Fin n → α) : Vector α n := ⟨⟨List.ofFn f⟩, by simp⟩

end Sys2Proof
end

