-- ==== Sys2Proof/Syntax.lean ====
section
/-! DEFINITION. The twelve operations of the core, one constructor for each row of spec/opcode_table.json
(spec/30_encoding.md R70). -/

namespace Sys2Proof

/-- An operation that a command word names (R70). Every operand but the round-key index is implicit (R74). -/
inductive Instr where
  /-- `EXPAND`: build the key schedule (R141). -/
  | expand
  /-- `ENCRYPT`: encrypt `COUNT` blocks (R162). -/
  | encrypt
  /-- `DECRYPT`: decrypt `COUNT` blocks (R163). -/
  | decrypt
  /-- `ENCODE`: bytes to bit-planes (R91). -/
  | encode
  /-- `DECODE`: bit-planes to bytes (R92). -/
  | decode
  /-- `SUBBYTES`: the S-box on all 16 byte positions (R103). -/
  | subbytes
  /-- `INVSUBBYTES`: the inverse S-box on all 16 byte positions (R106). -/
  | invsubbytes
  /-- `SHIFTROWS`: rotate row `r` left by `r` (R123). -/
  | shiftrows
  /-- `INVSHIFTROWS`: rotate row `r` right by `r` (R124). -/
  | invshiftrows
  /-- `MIXCOLUMNS` (R125). -/
  | mixcolumns
  /-- `INVMIXCOLUMNS` (R126). -/
  | invmixcolumns
  /-- `ADDROUNDKEY rk`: XOR round key `rk` into the state (R127); `rk` is the unsigned field `R` (R73). -/
  | addroundkey (rk : Nat)
  deriving DecidableEq, Repr

end Sys2Proof
end

