-- ==== Sys2Proof/WellFormed.lean ====
section
/-! DEFINITION. Which operations a command word can name (spec/30_encoding.md R71, R73). -/

namespace Sys2Proof

/-- The one check there is: a round-key index fits the four bits of field `R` (R73). Whether the index is at most `NR`
depends on the state and is checked by the operation itself (R75, R127). -/
def Instr.wellFormed : Instr → Bool
  | .expand | .encrypt | .decrypt | .encode | .decode => true
  | .subbytes | .invsubbytes | .shiftrows | .invshiftrows | .mixcolumns | .invmixcolumns => true
  | .addroundkey rk => decide (rk ≤ 15)

/-- `i` is an operation some command word names. -/
abbrev WellFormed (i : Instr) : Prop := i.wellFormed = true

end Sys2Proof
end

