-- ==== Sys2Proof/Decode.lean ====
section
/-! DEFINITION. The 8-bit command word (spec/30_encoding.md R71 to R77): a decoder, total on all 256 words, and an
encoder written from the same table (R72). -/

namespace Sys2Proof

/-- Why a command word is reserved (R75). -/
inductive Reserved where
  /-- `OP = 0`. -/
  | opZero
  /-- `OP` is 13, 14 or 15. -/
  | opAboveTwelve
  /-- `OP` is 1 to 11 and the field `R` is not 0. -/
  | indexNotZero
  deriving DecidableEq, Repr

/-- Field `OP`, `CMD[3:0]` (R71). -/
def opField (w : Byte) : Nat := (w.extractLsb' 0 4).toNat

/-- Field `R`, `CMD[7:4]`, as an unsigned number (R71, R73). -/
def indexField (w : Byte) : Nat := (w.extractLsb' 4 4).toNat

/-- For `OP` 1 to 11 the decoder matches all eight bits, so `R` must be 0 (R72, R75). -/
def matchWhole (w : Byte) (i : Instr) : Except Reserved Instr :=
  if indexField w = 0 then .ok i else .error .indexNotZero

/-- The decoder: one of the twelve operations, or the reason the word is reserved (R72, R75). The interface level has
no part in it (R77). -/
def decode (w : Byte) : Except Reserved Instr :=
  match opField w with
  | 0 => .error .opZero
  | 1 => matchWhole w .expand
  | 2 => matchWhole w .encrypt
  | 3 => matchWhole w .decrypt
  | 4 => matchWhole w .encode
  | 5 => matchWhole w .decode
  | 6 => matchWhole w .subbytes
  | 7 => matchWhole w .invsubbytes
  | 8 => matchWhole w .shiftrows
  | 9 => matchWhole w .invshiftrows
  | 10 => matchWhole w .mixcolumns
  | 11 => matchWhole w .invmixcolumns
  | 12 => .ok (.addroundkey (indexField w))
  | _ => .error .opAboveTwelve

/-- The command word of an operation (R72). An index above 15 has no word: only a well-formed operation has its
encoding here. -/
def encode : Instr → Byte
  | .expand => 0x01
  | .encrypt => 0x02
  | .decrypt => 0x03
  | .encode => 0x04
  | .decode => 0x05
  | .subbytes => 0x06
  | .invsubbytes => 0x07
  | .shiftrows => 0x08
  | .invshiftrows => 0x09
  | .mixcolumns => 0x0A
  | .invmixcolumns => 0x0B
  | .addroundkey rk => BitVec.ofNat 8 (0x0C + 16 * rk)

/-- The assembled program is the sequence of command bytes (R78). -/
def assemble (ops : List Instr) : List Byte := ops.map encode

/-- The command word whose low `nbits` bits are those of `w`, the rest 0; one word is the longest instruction (R71). -/
def tableWord (nbits w : Nat) : Byte := BitVec.ofNat 8 (w % 2 ^ nbits)

/-- What the decoder reads from a row of spec/opcode_table.json whose bits are `w`. -/
def decodeTableWord (nbits w : Nat) : Option Instr :=
  match decode (tableWord nbits w) with
  | .ok i => some i
  | .error _ => none

end Sys2Proof
end

