-- ==== Sys2Proof/Config.lean ====
section
/-! DEFINITION. What is fixed when a core is built (batch width, interface level), and the three buffers
(spec/00_scope.md R8, R9; spec/60_exceptions.md R195; spec/20_memory.md R50; spec/93 U1, U20). -/

namespace Sys2Proof

/-- `WORD`, the machine word width in bits (R9). -/
def wordBits : Nat := 64

/-- `LEVEL`, the interface level a core is instantiated with (R195); no command changes it (R81). -/
inductive Level where
  /-- The public level: `EXPAND`, `ENCRYPT`, `DECRYPT` only. -/
  | publicLevel
  /-- The unit level of a test harness: all twelve operations. -/
  | unitLevel
  deriving DecidableEq, Repr

/-- The construction-time parameters of one core, both OPEN in the spec (R8, R195): every claim is for every value. -/
structure Config where
  /-- `W`, the batch width, which is the width of every bit-plane register. -/
  W : Nat
  level : Level
  W_pos : 1 ≤ W
  W_le : W ≤ wordBits
  deriving DecidableEq, Repr

/-- The three byte-addressed spaces (R50). -/
inductive Space where
  | keybuf
  | din
  | dout
  deriving DecidableEq, Repr

/-- DESIGN CHOICE (assumption log 1): the parameters of the one core that `State.reset` names. The spec leaves both
open; no statement rests on these two values. -/
def Config.reference : Config :=
  { W := 64, level := .unitLevel, W_pos := by decide, W_le := by decide }

end Sys2Proof
end

