-- ==== Sys2Proof/Machine/State.lean ====
section
/-! DEFINITION. The state of the core (spec/10_state.md R20 to R40), the reasons a step stops, and the state after
reset (R39, R211). -/

namespace Sys2Proof.Machine

/-- The bytes of one buffer: (offset, byte) pairs in one canonical form (`Memory.wf` in Ops.lean). -/
abbrev Memory := List Host.Cell

/-- The field `ERR` of `STATUS`: the outcome of the most recent operation (R29). Code 3 never occurs, so it has no
constructor; `Err.code` in Flags.lean gives the two bits. -/
inductive Err where
  /-- 0: the last operation succeeded, or none was issued since reset. -/
  | success
  /-- 1: `InvalidKeyLength` (R181). -/
  | invalidKeyLength
  /-- 2: `InvalidBatchSize` (R182). -/
  | invalidBatchSize
  deriving DecidableEq, Repr

/-- What the outside world does to the core, one action a step: nothing else changes its state (R189). Only ports the
host may write have a constructor (R40): `DOUT`, `STATUS`, `SEQ`, `P` and `RK` have none. -/
inductive HostAction where
  /-- `CMD <- word`: issue an operation (R31). -/
  | command (word : Byte)
  /-- `KEYBUF[off] <- v` (R34). -/
  | writeKeybuf (off : Nat) (v : Byte)
  /-- `KLEN <- v` (R32). -/
  | writeKlen (v : Byte)
  /-- `DIN[off] <- v` (R35). -/
  | writeDin (off : Nat) (v : Byte)
  /-- `COUNT <- v` (R33). -/
  | writeCount (v : Byte)
  /-- The reset event, applied from outside the block (R210). -/
  | reset
  deriving DecidableEq, Repr

/-- Why the machine stops with a fault. No operation faults: the spec's two errors are next states with `ERR` written
(R183). -/
inductive Fault where
  /-- Raised by a host write to an offset its buffer does not have (R34, R35, R50). Safe: the machine stops where the
  spec says nothing exists (assumption log 6). -/
  | outsideBuffer (space : Space) (off : Nat)
  deriving DecidableEq, Repr

/-- Why an operation is refused: the complete list of R187, each under its own name. All are safe: a refused operation
has no successor state. -/
inductive Refusal where
  /-- Raised by `exec` for an instruction that has no meaning yet. Safe. -/
  | notModelled (mnemonic : String)
  /-- Raised by `step` for a reserved command word (R75, R187). Safe. -/
  | reservedWord (word : Byte)
  /-- Raised by the nine unit operations issued at the public level (R80, R187). Safe. -/
  | unitAtPublicLevel
  /-- Raised by `ENCRYPT`, `DECRYPT` and `ADDROUNDKEY` when `KVALID = 0` (R187). Safe. -/
  | noSchedule
  /-- Raised by `ADDROUNDKEY rk` when `rk > NR`, or in a state no run reaches when `RK[rk]` holds no value
  (R27, R187). Safe. -/
  | noRoundKey (rk : Nat)
  /-- Raised by every unit operation that reads `P` when `PVALID = 0`, or in a state no run reaches when `P` holds no
  value (R187). Safe. -/
  | noBatch
  deriving DecidableEq, Repr

/-- Everything the spec gives the machine (the table at the head of spec/10_state.md), and three things of the model's
own: the parameters `cfg`, the host's pending actions `host`, and the free-value counter `resets`. -/
structure State where
  /-- `W` and `LEVEL`, fixed at construction (R8, R195). No step changes it. -/
  cfg : Config
  /-- `P[0..127]`, or that it holds no value (R20, R39). -/
  p : Option (Batch cfg.W)
  /-- `RK[0..14][0..127]`, each entry a RoundKeyBitslice or no value (R25, R27, R39). -/
  rk : Vector (Option (Batch cfg.W)) 15
  /-- `NR` (R28). -/
  nr : BitVec 4
  /-- `KVALID` (R29). -/
  kvalid : Bool
  /-- `PVALID` (R29). -/
  pvalid : Bool
  /-- `ERR` (R29). -/
  err : Err
  /-- `SEQ` (R30). -/
  seq : BitVec 6
  /-- `KLEN` (R32). -/
  klen : Byte
  /-- `COUNT` (R33). -/
  count : Byte
  /-- `KEYBUF[0..31]` (R34). -/
  keybuf : Memory
  /-- `DIN[0..16W-1]` (R35). -/
  din : Memory
  /-- `DOUT[0..16W-1]` (R36). -/
  dout : Memory
  /-- MODEL'S OWN: what the host does next, first action first (R31, R62, R189; assumption log 5). -/
  host : List HostAction
  /-- MODEL'S OWN: how many reset events this run has had; through it the free values `Config.resetByte` of two reset
  events of one run are independent (assumption log 4). -/
  resets : Nat
  deriving DecidableEq, Repr

/-- FREE VALUE (assumption log 4): the byte that offset `off` of `space` holds right after a reset event in the state
`before`. Whether it is the old content, zero or anything else is not defined (R39, R211, U10), so it may depend on
everything the core held: neither that old contents are erased nor that they are kept can be proved. DESIGN CHOICE
(log 4): it is one function of that state, so two equal states, `resets` included, get the same bytes. -/
opaque Config.resetByte (before : State) (space : Space) (off : Nat) : Byte

/-- What an instruction's meaning, and a step, answer. -/
abbrev Result := Host.Outcome State Fault Refusal

/-- The state right after reset of a core built with `cfg`, whose buffers hold `keybuf`, `din`, `dout`: their contents
are arbitrary, an argument (R39, R211). `P` and `RK` hold no value. -/
def State.resetOf (cfg : Config) (keybuf din dout : Memory) : State where
  cfg := cfg
  p := none
  rk := Vector.replicate 15 none
  nr := 0
  kvalid := false
  pvalid := false
  err := .success
  seq := 0
  klen := 0
  count := 0
  keybuf := keybuf
  din := din
  dout := dout
  host := []
  resets := 0

/-- The machine right after reset (R39, R211): the core of assumption log 1, with nothing listed in its buffers
(assumption log 2) and no host action pending (assumption log 5). -/
def State.reset : State := State.resetOf Config.reference [] [] []

end Sys2Proof.Machine
end

