-- ==== Sys2Proof/Machine/Ops.lean ====
section
/-! DEFINITION. The named operations over buffers and registers, and raising an error (spec/00_scope.md R15,
spec/20_memory.md R50 to R57, spec/60_exceptions.md R183, R184, R187). -/

namespace Sys2Proof

/-- How many bytes a space has, offsets counting from 0 (R34, R35, R36, R50). -/
def Space.size (cfg : Config) : Space → Nat
  | .keybuf => 32
  | .din => 16 * cfg.W
  | .dout => 16 * cfg.W

end Sys2Proof

namespace Sys2Proof.Machine

/-! ## Buffers -/

/-- What an offset that is not listed reads as. DESIGN CHOICE (assumption log 2): the spec leaves the contents after
reset arbitrary (R39). -/
def Memory.unlisted : Byte := 0

/-- One byte of a buffer (`MemRead(space, off, 1)`, R15). -/
def Memory.read : Memory → Nat → Byte
  | [], _ => Memory.unlisted
  | (a, x) :: rest, off => if a = off then x else Memory.read rest off

/-- Put a cell before `m`, or nothing where an unlisted offset reads the same. -/
def Memory.cons (off : Nat) (v : Byte) (m : Memory) : Memory :=
  if v = Memory.unlisted then m else (off, v) :: m

/-- Write one byte of a buffer (`MemWrite(space, off, 1, v)`, R15), keeping the canonical form. -/
def Memory.write : Memory → Nat → Byte → Memory
  | [], off, v => Memory.cons off v []
  | (a, x) :: rest, off, v =>
    if off < a then Memory.cons off v ((a, x) :: rest)
    else if off = a then Memory.cons off v rest
    else (a, x) :: Memory.write rest off v

/-- `MemRead(space, off, n)`: the bytes at `off .. off+n-1`, first byte at `off` (R15). -/
def Memory.readBytes (m : Memory) (off n : Nat) : List Byte :=
  (List.range n).map fun i => Memory.read m (off + i)

/-- `MemWrite(space, off, n, v)`: the string `v` at `off .. off+n-1` (R15), one byte at a time (R95). -/
def Memory.writeBytes : Memory → Nat → List Byte → Memory
  | m, _, [] => m
  | m, off, v :: rest => Memory.writeBytes (Memory.write m off v) (off + 1) rest

/-- Every listed offset is at least `lo`, the offsets rise strictly, and no cell holds the unlisted byte. -/
def Memory.wfFrom (lo : Nat) : Memory → Bool
  | [] => true
  | (a, x) :: rest => decide (lo ≤ a) && (decide (x ≠ Memory.unlisted) && Memory.wfFrom (a + 1) rest)

/-- The canonical form: equal buffers are equal lists. -/
def Memory.wf (m : Memory) : Bool := Memory.wfFrom 0 m

/-- Every listed offset is an offset of a buffer of `n` bytes. -/
def Memory.within (n : Nat) (m : Memory) : Bool := m.all fun cell => decide (cell.1 < n)

/-- The contents a buffer has after a reset event in the state `before`: free bytes, which may depend on all that the
core held (R39, R211, U10; assumption log 4). -/
def Memory.afterReset (before : State) (space : Space) : Memory :=
  Memory.writeBytes [] 0 ((List.range (space.size before.cfg)).map fun off => Config.resetByte before space off)

/-! ## Registers: one update for each -/

/-- `P <- b`, the whole file (R24). -/
def State.setP (s : State) (b : Batch s.cfg.W) : State := { s with p := some b }

/-- `PVALID <- v` (R29). -/
def State.setPvalid (s : State) (v : Bool) : State := { s with pvalid := v }

/-- `RK`, `NR` and `KVALID <- 1` together, as `EXPAND` writes them (R27, R28, R29). -/
def State.setSchedule (s : State) (nr : BitVec 4) (rk : Vector (Option (Batch s.cfg.W)) 15) : State :=
  { s with nr := nr, rk := rk, kvalid := true }

/-- `ERR <- e` (R29). -/
def State.setErr (s : State) (e : Err) : State := { s with err := e }

/-- `SEQ <- v` (R30). -/
def State.setSeq (s : State) (v : BitVec 6) : State := { s with seq := v }

/-- `KLEN <- v`, by the host (R32). -/
def State.setKlen (s : State) (v : Byte) : State := { s with klen := v }

/-- `COUNT <- v`, by the host (R33). -/
def State.setCount (s : State) (v : Byte) : State := { s with count := v }

/-- New contents of `KEYBUF` (R34). -/
def State.setKeybuf (s : State) (m : Memory) : State := { s with keybuf := m }

/-- New contents of `DIN` (R35). -/
def State.setDin (s : State) (m : Memory) : State := { s with din := m }

/-- New contents of `DOUT` (R36). -/
def State.setDout (s : State) (m : Memory) : State := { s with dout := m }

/-- The host's further actions (assumption log 5). -/
def State.setHost (s : State) (actions : List HostAction) : State := { s with host := actions }

/-! ## Errors and success -/

/-- Raising an error, this hardware's trap entry: `ERR <- code` and nothing else changes; no control is transferred,
nothing is saved (R183). There is no return operation, because nothing was entered (R186). -/
def raise (e : Err) (s : State) : Result := .next (s.setErr e)

/-- Completing without raising: `ERR <- 0` (R184). -/
def succeed (s : State) : Result := .next (s.setErr .success)

/-! ## The conditions an operation checks before anything else -/

/-- Level gating: a unit operation is refused at the public level (R80, R187). -/
def atUnitLevel (s : State) (k : Result) : Result :=
  match s.cfg.level with
  | .unitLevel => k
  | .publicLevel => .refused .unitAtPublicLevel

/-- Use a value where there is one, refuse where there is none (R187). -/
def withValue {α : Type} (v : Option α) (r : Refusal) (k : α → Result) : Result :=
  match v with
  | some a => k a
  | none => .refused r

/-- Read `P`: refused when it holds no value (R187). -/
def withBatch (s : State) (k : Batch s.cfg.W → Result) : Result :=
  if s.pvalid then withValue s.p .noBatch k else .refused .noBatch

/-- Require a key schedule: refused when `KVALID = 0` (R187). -/
def withSchedule (s : State) (k : Result) : Result :=
  if s.kvalid then k else .refused .noSchedule

/-- `RK[rk]`, or that it holds no value (R25, R27). -/
def State.roundKeyPlanes (s : State) (rk : Nat) : Option (Batch s.cfg.W) := s.rk[rk]?.join

/-- Read `RK[rk]`: refused when `KVALID = 0`, `rk > NR`, or the entry holds no value (R27, R187). -/
def withRoundKey (s : State) (rk : Nat) (k : Batch s.cfg.W → Result) : Result :=
  withSchedule s <|
    if s.nr.toNat < rk then .refused (.noRoundKey rk)
    else withValue (s.roundKeyPlanes rk) (.noRoundKey rk) k

/-- `COUNT = 0` or `COUNT > W` (R182). -/
def badCount (s : State) : Bool := decide (s.count.toNat = 0) || decide (s.cfg.W < s.count.toNat)

/-- The batch-size check, before anything else is done: `InvalidBatchSize` unless `1 ≤ COUNT ≤ W` (R182). -/
def withCount (s : State) (k : Nat → Result) : Result :=
  if badCount s then raise .invalidBatchSize s else k s.count.toNat

/-- A transformation of `P` in place: `P <- f(P)`, `ERR <- 0` (R24, R120). -/
def transform (s : State) (f : Batch s.cfg.W → Batch s.cfg.W) : Result :=
  withBatch s fun b => succeed (s.setP (f b))

end Sys2Proof.Machine
end

