-- ==== Sys2Proof/Machine/Operands.lean ====
section
/-! DEFINITION. How planes, slices, batches and blocks are put together and taken apart (spec/10_state.md R21 to R23,
spec/00_scope.md R13, R15, spec/20_memory.md R51 to R53). -/

namespace Sys2Proof.Machine

/-- The `w`-bit value whose bit `k` is `f k`. -/
def laneBits : (w : Nat) → (Nat → Bool) → BitVec w
  | 0, _ => 0#0
  | n + 1, f => BitVec.cons (f n) (laneBits n f)

/-- `rep(b)`: all ones when `b = 1`, zero when `b = 0` (R13). -/
def rep (w : Nat) (b : Bool) : Plane w := if b then BitVec.allOnes w else 0

/-- XOR of two lists of eight planes, plane by plane (spec/42_round_ops.md, head). -/
def Slice.xor {w : Nat} (a b : Slice w) : Slice w := tabulate 8 fun j => a[j] ^^^ b[j]

/-- The byte a slice holds in lane `k` (R21, R23, R52). -/
def Slice.byte {w : Nat} (q : Slice w) (k : Nat) : Byte :=
  laneBits 8 fun j => (q[j]?.getD 0).getLsbD k

/-- A byte on eight one-bit planes. -/
def Slice.ofByte (a : Byte) : Slice 1 := tabulate 8 fun j => BitVec.ofBool (a.getLsbD j)

/-- The eight planes of byte position `b`: `P[8b + j]`, `j = 0..7` (R21). -/
def Batch.slice {w : Nat} (p : Batch w) (b : Fin 16) : Slice w :=
  tabulate 8 fun j => p[8 * b.val + j.val]

/-- The sixteen byte positions of a batch. -/
def Batch.slices {w : Nat} (p : Batch w) : Vector (Slice w) 16 := tabulate 16 (Batch.slice p)

/-- The batch whose byte position `b` has the planes `f b`. -/
def Batch.ofSlices {w : Nat} (f : Fin 16 → Slice w) : Batch w :=
  let slices : Vector (Slice w) 16 := tabulate 16 f
  tabulate 128 fun p => slices[p.val / 8][p.val % 8]

/-- Byte position `r + 4c`, the byte at state row `r`, column `c`; both are taken modulo 4 (R22). -/
def position (r c : Nat) : Fin 16 := ⟨r % 4 + 4 * (c % 4), by omega⟩

/-- State row of a byte position, `b mod 4` (R22, R51). -/
def row (b : Fin 16) : Nat := b.val % 4

/-- State column of a byte position, `b div 4` (R22, R51). -/
def column (b : Fin 16) : Nat := b.val / 4

/-- Byte `b` of the block in lane `k` (R21, R23). -/
def Batch.byte {w : Nat} (p : Batch w) (b : Fin 16) (k : Nat) : Byte := Slice.byte (Batch.slice p b) k

/-- The RoundKeyBitslice of a 16-byte round key: every lane alike (R26, R144). -/
def Batch.replicated (w : Nat) (key : Fin 16 → Byte) : Batch w :=
  Batch.ofSlices fun b => tabulate 8 fun j => rep w ((key b).getLsbD j)

/-- Where byte `b` of block `k` lies in `DIN` and `DOUT` (R35, R51). -/
def blockOffset (k b : Nat) : Nat := 16 * k + b

/-- The key lengths `EXPAND` accepts (R7, R32). -/
def goodKeyLength (klen : Byte) : Bool :=
  decide (klen.toNat = 16) || (decide (klen.toNat = 24) || decide (klen.toNat = 32))

end Sys2Proof.Machine
end

