-- ==== Sys2Proof/Machine/Flags.lean ====
section
/-! DEFINITION. The status register as the host reads it, and the ports the host may read (spec/10_state.md R29, R40;
spec/20_memory.md R57; spec/60_exceptions.md R181, R182). -/

namespace Sys2Proof.Machine

/-- The code of `ERR` (R29, R181, R182). -/
def Err.code : Err → BitVec 2
  | .success => 0
  | .invalidKeyLength => 1
  | .invalidBatchSize => 2

/-- `STATUS`: `NR` in bits 7:4, `ERR` in 3:2, `PVALID` in 1, `KVALID` in 0 (R29). -/
def State.status (s : State) : Byte :=
  s.nr ++ s.err.code ++ BitVec.ofBool s.pvalid ++ BitVec.ofBool s.kvalid

/-- The ports (R59). `CMD` is write-only, and `P` and `RK` are no ports (R24, R31, R40). -/
inductive Port where
  | keybuf (off : Nat)
  | klen
  | din (off : Nat)
  | count
  | dout (off : Nat)
  | status
  | seq
  deriving DecidableEq, Repr

/-- What the host reads at a port, `none` where the port or the offset is not visible to it (R40). A read is a function
of the state and changes nothing (R57). -/
def hostRead (s : State) : Port → Option Byte
  | .keybuf off => if off < Space.size s.cfg .keybuf then some (Memory.read s.keybuf off) else none
  | .klen => some s.klen
  | .din off => if off < Space.size s.cfg .din then some (Memory.read s.din off) else none
  | .count => some s.count
  | .dout off => if off < Space.size s.cfg .dout then some (Memory.read s.dout off) else none
  | .status => some s.status
  | .seq =>
    match s.cfg.level with
    | .unitLevel => some (s.seq.setWidth 8)
    | .publicLevel => none

end Sys2Proof.Machine
end

