-- ==== Sys2Proof/Machine/Codec.lean ====
section
/-! DEFINITION. The Bit-Plane Codec: `ENCODE` and `DECODE` (spec/40_codec.md R90 to R95). -/

namespace Sys2Proof.Machine

/-- The batch `ENCODE` makes of the first `n` blocks of `m`: bit `k` of plane `8b + j` is bit `j` of byte `b` of block
`k`, and 0 in the lanes from `n` on (R91, R94). -/
def encodeBlocks (w n : Nat) (m : Memory) : Batch w :=
  tabulate 128 fun p =>
    laneBits w fun k => decide (k < n) && (Memory.read m (blockOffset k (p.val / 8))).getLsbD (p.val % 8)

/-- The bytes `DECODE` extracts, block 0 first: byte `b` of block `k` is at place `16k + b` (R92). -/
def decodedBytes {w : Nat} (n : Nat) (p : Batch w) : List Byte :=
  (List.range (16 * n)).map fun off => Batch.byte p (position (off % 4) (off % 16 / 4)) (off / 16)

/-- `ENCODE` without the level gate, as the sequencer also issues it (R91). -/
def unitEncode (s : State) : Result :=
  withCount s fun n => succeed ((s.setP (encodeBlocks s.cfg.W n s.din)).setPvalid true)

/-- `DECODE` without the level gate (R92): the refusal comes before the error (R185). -/
def unitDecode (s : State) : Result :=
  withBatch s fun p => withCount s fun n =>
    succeed (s.setDout (Memory.writeBytes s.dout 0 (decodedBytes n p)))

/-- `ENCODE` (R91, R80). -/
def execEncode (s : State) : Result := atUnitLevel s (unitEncode s)

/-- `DECODE` (R92, R80). -/
def execDecode (s : State) : Result := atUnitLevel s (unitDecode s)

end Sys2Proof.Machine
end

