-- ==== Sys2Proof/Machine/KeySchedule.lean ====
section
/-! DEFINITION. The Key Schedule: `EXPAND` (spec/43_key_schedule.md R140 to R148). -/

namespace Sys2Proof.Machine

/-- XOR of words, byte by byte (R142). -/
def KeyWord.xor (a b : KeyWord) : KeyWord := tabulate 4 fun t => a[t] ^^^ b[t]

/-- `RotWord([a0, a1, a2, a3]) = [a1, a2, a3, a0]` (R143). -/
def rotWord (a : KeyWord) : KeyWord := #v[a[1], a[2], a[3], a[0]]

/-- `SubWord`: `S` on each byte, by the circuit (R143, R108). -/
def subWord (a : KeyWord) : KeyWord := #v[sboxByte a[0], sboxByte a[1], sboxByte a[2], sboxByte a[3]]

/-- `Rcon(m)`, `m = 1..10` (R143). No other `m` is used (R143). -/
def rcon : Nat → Byte
  | 1 => 0x01
  | 2 => 0x02
  | 3 => 0x04
  | 4 => 0x08
  | 5 => 0x10
  | 6 => 0x20
  | 7 => 0x40
  | 8 => 0x80
  | 9 => 0x1b
  | 10 => 0x36
  | _ => 0x00

/-- The word that is XORed into `w[i-Nk]`, made of `w[i-1]` (R142). -/
def keyStep (nk i : Nat) (prev : KeyWord) : KeyWord :=
  if i % nk = 0 then KeyWord.xor (subWord (rotWord prev)) #v[rcon (i / nk), 0, 0, 0]
  else if nk = 8 ∧ i % nk = 4 then subWord prev
  else prev

/-- Word `i < Nk` of the key: bytes `4i .. 4i+3` (R53, R142). -/
def keyWord (m : Memory) (i : Nat) : KeyWord := tabulate 4 fun t => Memory.read m (4 * i + t.val)

/-- The first `n` words `w[0 .. n-1]` of the expansion of the key in `m`, `Nk = nk` (R142). -/
def keyWords (m : Memory) (nk : Nat) : Nat → List KeyWord
  | 0 => []
  | i + 1 =>
    let w := keyWords m nk i
    let next :=
      if i < nk then keyWord m i
      else KeyWord.xor (w.getD (i - nk) (Vector.replicate 4 0)) (keyStep nk i (w.getD (i - 1) (Vector.replicate 4 0)))
    w ++ [next]

/-- Byte `b` of round key `rk`: `w[4*rk + (b div 4)][b mod 4]` (R144). -/
def roundKeyByte (words : List KeyWord) (rk : Nat) (b : Fin 16) : Byte :=
  (words.getD (4 * rk + b.val / 4) (Vector.replicate 4 0))[b.val % 4]

/-- The file `RK` after a successful `EXPAND`: round keys `0..nr`, replicated across the lanes, and no value above `nr`
(R26, R27, R144). -/
def roundKeys (w : Nat) (words : List KeyWord) (nr : Nat) : Vector (Option (Batch w)) 15 :=
  tabulate 15 fun rk => if rk.val ≤ nr then some (Batch.replicated w (roundKeyByte words rk.val)) else none

/-- `Nk`, the key length in words (R7, R141). -/
def keyWordCount (klen : Byte) : Nat := klen.toNat / 4

/-- `Nr = Nk + 6` (R7, R141). -/
def roundCount (klen : Byte) : Nat := keyWordCount klen + 6

/-- The words `EXPAND` computes from `KEYBUF` and `KLEN`: `4 * (nr + 1)` of them (R141, R142). -/
def scheduleWords (keybuf : Memory) (klen : Byte) : List KeyWord :=
  keyWords keybuf (keyWordCount klen) (4 * (roundCount klen + 1))

/-- `EXPAND` (R141): public at both levels. -/
def execExpand (s : State) : Result :=
  if goodKeyLength s.klen then
    succeed (s.setSchedule (BitVec.ofNat 4 (roundCount s.klen))
      (roundKeys s.cfg.W (scheduleWords s.keybuf s.klen) (roundCount s.klen)))
  else raise .invalidKeyLength s

end Sys2Proof.Machine
end

