-- ==== Sys2Proof/Machine/RoundOps.lean ====
section
/-! DEFINITION. The round operations: `SHIFTROWS`, `INVSHIFTROWS`, `MIXCOLUMNS`, `INVMIXCOLUMNS`, `ADDROUNDKEY`
(spec/42_round_ops.md R120 to R130). -/

namespace Sys2Proof.Machine

/-- `XT`: multiply-by-2 on the eight planes of a byte position (R122). -/
def xt {w : Nat} (a : Slice w) : Slice w :=
  #v[a[7], a[0] ^^^ a[7], a[1], a[2] ^^^ a[7], a[3] ^^^ a[7], a[4], a[5], a[6]]

/-- `M9(a) = XT3(a) ^ a` (R126). -/
def mul9 {w : Nat} (a : Slice w) : Slice w := Slice.xor (xt (xt (xt a))) a

/-- `M11(a) = XT3(a) ^ XT(a) ^ a` (R126). -/
def mul11 {w : Nat} (a : Slice w) : Slice w := Slice.xor (Slice.xor (xt (xt (xt a))) (xt a)) a

/-- `M13(a) = XT3(a) ^ XT2(a) ^ a` (R126). -/
def mul13 {w : Nat} (a : Slice w) : Slice w := Slice.xor (Slice.xor (xt (xt (xt a))) (xt (xt a))) a

/-- `M14(a) = XT3(a) ^ XT2(a) ^ XT(a)` (R126). -/
def mul14 {w : Nat} (a : Slice w) : Slice w :=
  Slice.xor (Slice.xor (xt (xt (xt a))) (xt (xt a))) (xt a)

/-- Row `r` rotated left by `r`: the byte of column `c + r` moves to column `c` (R123). -/
def shiftRows {w : Nat} (p : Batch w) : Batch w :=
  let old := Batch.slices p
  Batch.ofSlices fun b => old[position (row b) (column b + row b)]

/-- Row `r` rotated right by `r`: the byte of column `c - r` moves to column `c`, modulo 4 (R124). -/
def invShiftRows {w : Nat} (p : Batch w) : Batch w :=
  let old := Batch.slices p
  Batch.ofSlices fun b => old[position (row b) (column b + 4 - row b)]

/-- Each column mixed: `B(r,c) <- XT(a_r ^ a_(r+1)) ^ a_(r+1) ^ a_(r+2) ^ a_(r+3)` (R125). -/
def mixColumns {w : Nat} (p : Batch w) : Batch w :=
  let old := Batch.slices p
  Batch.ofSlices fun b =>
    let a := fun i => old[position (row b + i) (column b)]
    Slice.xor (Slice.xor (Slice.xor (xt (Slice.xor (a 0) (a 1))) (a 1)) (a 2)) (a 3)

/-- The inverse: `B(r,c) <- M14(a_r) ^ M11(a_(r+1)) ^ M13(a_(r+2)) ^ M9(a_(r+3))` (R126). -/
def invMixColumns {w : Nat} (p : Batch w) : Batch w :=
  let old := Batch.slices p
  Batch.ofSlices fun b =>
    let a := fun i => old[position (row b + i) (column b)]
    Slice.xor (Slice.xor (Slice.xor (mul14 (a 0)) (mul11 (a 1))) (mul13 (a 2))) (mul9 (a 3))

/-- `P[p] <- P[p] ^ RK[rk][p]` for all 128 planes (R127). -/
def addRoundKey {w : Nat} (key p : Batch w) : Batch w := tabulate 128 fun i => p[i] ^^^ key[i]

/-- `SHIFTROWS` without the level gate (R123). -/
def unitShiftRows (s : State) : Result := transform s shiftRows

/-- `INVSHIFTROWS` without the level gate (R124). -/
def unitInvShiftRows (s : State) : Result := transform s invShiftRows

/-- `MIXCOLUMNS` without the level gate (R125). -/
def unitMixColumns (s : State) : Result := transform s mixColumns

/-- `INVMIXCOLUMNS` without the level gate (R126). -/
def unitInvMixColumns (s : State) : Result := transform s invMixColumns

/-- `ADDROUNDKEY rk` without the level gate (R127): `P` and `RK[rk]` must both hold values. -/
def unitAddRoundKey (rk : Nat) (s : State) : Result :=
  withBatch s fun _ => withRoundKey s rk fun key => transform s (addRoundKey key)

/-- `SHIFTROWS` (R123, R80). -/
def execShiftRows (s : State) : Result := atUnitLevel s (unitShiftRows s)

/-- `INVSHIFTROWS` (R124, R80). -/
def execInvShiftRows (s : State) : Result := atUnitLevel s (unitInvShiftRows s)

/-- `MIXCOLUMNS` (R125, R80). -/
def execMixColumns (s : State) : Result := atUnitLevel s (unitMixColumns s)

/-- `INVMIXCOLUMNS` (R126, R80). -/
def execInvMixColumns (s : State) : Result := atUnitLevel s (unitInvMixColumns s)

/-- `ADDROUNDKEY rk` (R127, R80). -/
def execAddRoundKey (rk : Nat) (s : State) : Result := atUnitLevel s (unitAddRoundKey rk s)

end Sys2Proof.Machine
end

