-- ==== Sys2Proof/Machine/Orchestrator.lean ====
section
/-! DEFINITION. The Cipher Orchestrator: the sequencer, `ENCRYPT` and `DECRYPT` (spec/44_orchestrator.md R160 to
R169). -/

namespace Sys2Proof.Machine

/-- A unit operation, an entry of an expansion list (R160). -/
inductive UnitOp where
  | encode
  | decode
  | subBytes
  | invSubBytes
  | shiftRows
  | invShiftRows
  | mixColumns
  | invMixColumns
  | addRoundKey (rk : Nat)
  deriving DecidableEq, Repr

/-- The command that issues the same unit operation from outside (R164). -/
def UnitOp.toInstr : UnitOp → Instr
  | .encode => .encode
  | .decode => .decode
  | .subBytes => .subbytes
  | .invSubBytes => .invsubbytes
  | .shiftRows => .shiftrows
  | .invShiftRows => .invshiftrows
  | .mixColumns => .mixcolumns
  | .invMixColumns => .invmixcolumns
  | .addRoundKey rk => .addroundkey rk

/-- A unit operation as the sequencer performs it: exactly as its own rule says, whatever the interface level (R160). -/
def runUnit : UnitOp → State → Result
  | .encode, s => unitEncode s
  | .decode, s => unitDecode s
  | .subBytes, s => unitSubBytes s
  | .invSubBytes, s => unitInvSubBytes s
  | .shiftRows, s => unitShiftRows s
  | .invShiftRows, s => unitInvShiftRows s
  | .mixColumns, s => unitMixColumns s
  | .invMixColumns, s => unitInvMixColumns s
  | .addRoundKey rk, s => unitAddRoundKey rk s

/-- Full round `r` of an encryption (R161, R162). -/
def encryptRound (r : Nat) : List UnitOp := [.subBytes, .shiftRows, .mixColumns, .addRoundKey r]

/-- The expansion list of `ENCRYPT`: codec, initial round key, `NR-1` full rounds, final round, codec (R162). -/
def encryptList (nr : Nat) : List UnitOp :=
  [.encode, .addRoundKey 0] ++ (List.range (nr - 1)).flatMap (fun i => encryptRound (i + 1)) ++
    [.subBytes, .shiftRows, .addRoundKey nr, .decode]

/-- Mirrored round with round key `r` of a decryption (R163). -/
def decryptRound (r : Nat) : List UnitOp := [.invShiftRows, .invSubBytes, .addRoundKey r, .invMixColumns]

/-- The expansion list of `DECRYPT`: round keys `NR` down to 0 (R163). -/
def decryptList (nr : Nat) : List UnitOp :=
  [.encode, .addRoundKey nr] ++ (List.range (nr - 1)).flatMap (fun i => decryptRound (nr - 1 - i)) ++
    [.invShiftRows, .invSubBytes, .addRoundKey 0, .decode]

/-- The round state an entry belongs to, for `1 ≤ SEQ ≤ 4*NR` (R161). -/
def roundState (seq : Nat) : Nat := (seq + 2) / 4

/-- The sequencer: perform the entry `SEQ` names, then `SEQ <- SEQ + 1`; after the last entry `SEQ <- 0` (R30, R160).
`fuel` bounds the entries performed. -/
def sequencer (ops : List UnitOp) : Nat → State → Result
  | 0, s => .next (s.setSeq 0)
  | fuel + 1, s =>
    match ops[s.seq.toNat]? with
    | none => .next (s.setSeq 0)
    | some op =>
      match runUnit op s with
      | .next t => sequencer ops fuel (t.setSeq (t.seq + 1))
      | .fault r => .fault r
      | .refused r => .refused r

/-- Run a whole list, then `ERR <- 0` (R162, R163). -/
def runExpansion (ops : List UnitOp) (s : State) : Result :=
  match sequencer ops ops.length s with
  | .next t => succeed t
  | .fault r => .fault r
  | .refused r => .refused r

/-- `ENCRYPT` (R162): the refusal comes before the error (R185). -/
def execEncrypt (s : State) : Result :=
  withSchedule s <| withCount s fun _ => runExpansion (encryptList s.nr.toNat) s

/-- `DECRYPT` (R163). -/
def execDecrypt (s : State) : Result :=
  withSchedule s <| withCount s fun _ => runExpansion (decryptList s.nr.toNat) s

end Sys2Proof.Machine
end

