-- ==== Sys2Proof/Machine/Dispatch.lean ====
section
/-! DEFINITION. Which meaning each operation has (spec/30_encoding.md R70). -/

namespace Sys2Proof.Machine

def exec (i : Instr) (s : State) : Host.Outcome State Fault Refusal :=
  match i with
  | .expand => Sys2Proof.Machine.execExpand s
  | .encrypt => Sys2Proof.Machine.execEncrypt s
  | .decrypt => Sys2Proof.Machine.execDecrypt s
  | .encode => Sys2Proof.Machine.execEncode s
  | .decode => Sys2Proof.Machine.execDecode s
  | .subbytes => Sys2Proof.Machine.execSubBytes s
  | .invsubbytes => Sys2Proof.Machine.execInvSubBytes s
  | .shiftrows => Sys2Proof.Machine.execShiftRows s
  | .invshiftrows => Sys2Proof.Machine.execInvShiftRows s
  | .mixcolumns => Sys2Proof.Machine.execMixColumns s
  | .invmixcolumns => Sys2Proof.Machine.execInvMixColumns s
  | .addroundkey rk => Sys2Proof.Machine.execAddRoundKey rk s

end Sys2Proof.Machine
end

