-- ==== Sys2Proof/Machine/HostPort.lean ====
section
/-! DEFINITION. What the host does to the core: issuing an operation, port writes and the reset event
(spec/10_state.md R31 to R35, R40; spec/70_reset_and_hazards.md R210, R211; spec/30_encoding.md R75, R78). -/

namespace Sys2Proof.Machine

/-- `KEYBUF[off] <- v` (R34); an offset the buffer does not have faults. -/
def hostWriteKeybuf (off : Nat) (v : Byte) (s : State) : Result :=
  if off < Space.size s.cfg .keybuf then .next (s.setKeybuf (Memory.write s.keybuf off v))
  else .fault (.outsideBuffer .keybuf off)

/-- `DIN[off] <- v` (R35); an offset the buffer does not have faults. -/
def hostWriteDin (off : Nat) (v : Byte) (s : State) : Result :=
  if off < Space.size s.cfg .din then .next (s.setDin (Memory.write s.din off v))
  else .fault (.outsideBuffer .din off)

/-- The reset event (R210, R211): flags and host registers cleared, `P` and `RK` left with no value, the buffers'
contents open: free values that may depend on all that the core held (assumption log 4). The parameters and the host's further actions stay. -/
def resetEvent (s : State) : State :=
  { State.resetOf s.cfg (Memory.afterReset s .keybuf) (Memory.afterReset s .din) (Memory.afterReset s .dout) with
    host := s.host, resets := s.resets + 1 }

/-- A command word written to `CMD` (R31): the operation it decodes to, or a refusal if it is reserved (R75). -/
def issue (word : Byte) (s : State) : Result :=
  match decode word with
  | .ok i => exec i s
  | .error _ => .refused (.reservedWord word)

/-- One host action, whole and at once (R58). -/
def perform : HostAction → State → Result
  | .command word, s => issue word s
  | .writeKeybuf off v, s => hostWriteKeybuf off v s
  | .writeKlen v, s => .next (s.setKlen v)
  | .writeDin off v, s => hostWriteDin off v s
  | .writeCount v, s => .next (s.setCount v)
  | .reset, s => .next (resetEvent s)

/-- `KEYBUF[0..] <- bytes` and `KLEN <- length`, as host actions (R78). -/
def writeKeyActions (key : List Byte) : List HostAction :=
  key.mapIdx (fun i v => .writeKeybuf i v) ++ [.writeKlen (BitVec.ofNat 8 key.length)]

/-- `DIN[k] <- bytes`, which means `MemWrite(DIN, 16k, 16, bytes)`, as host actions (R78). -/
def writeBlockActions (k : Nat) (bytes : List Byte) : List HostAction :=
  bytes.mapIdx fun i v => .writeDin (16 * k + i) v

end Sys2Proof.Machine
end

