-- ==== Sys2Proof/Machine/Step.lean ====
section
/-! DEFINITION. One step: the host's next action, or nothing while the core is idle (spec/20_memory.md R58, R61;
spec/60_exceptions.md R189, R200). -/

namespace Sys2Proof.Machine

/-- One step. With no action pending the core is idle and holds all its state (R200). -/
def step (s : State) : Host.Outcome State Fault Refusal :=
  match s.host with
  | [] => .next s
  | action :: rest => perform action (s.setHost rest)

/-- `s` with a command word as the host's very next action: there is no instruction memory, so this is where the next
operation comes from (R31, R66). -/
def State.withFetchWord (s : State) (nbits w : Nat) : State :=
  s.setHost (.command (tableWord nbits w) :: s.host)

end Sys2Proof.Machine
end

