-- ==== Sys2Proof/Machine/Trace.lean ====
section
/-! DEFINITION. The primitive operations a command executes: the circuits as lists of gates, what the unit operations and
`EXPAND` compute by them, and the trace of every unit operation and command (spec/41_sbox.md R102, R105;
spec/42_round_ops.md R122, R125 to R127; spec/43_key_schedule.md R142, R143; spec/44_orchestrator.md R167;
spec/70_reset_and_hazards.md R218). A trace is built from public values only: the operation, `NR`, `COUNT`. -/

namespace Sys2Proof.Machine

/-- A primitive operation: a bitwise one on `W`-bit values (R13), or the move of one bit by the codec (R94). -/
inductive Primitive where
  | and
  | xor
  | xnor
  | not
  | move
  deriving DecidableEq, Repr

/-- One gate of a straight-line circuit: what it does, and the places of its operands in the list of values so far, the
inputs first; `not` reads its first operand only. -/
structure Gate where
  op : Primitive
  a : Nat
  b : Nat
  deriving DecidableEq, Repr

/-- The value of a gate, all lanes at once (R102). -/
def Gate.value {w : Nat} (g : Gate) (values : List (Plane w)) : Plane w :=
  match g.op with
  | .and => values.getD g.a 0 &&& values.getD g.b 0
  | .xor => values.getD g.a 0 ^^^ values.getD g.b 0
  | .xnor => values.getD g.a 0 ^^^ ~~~(values.getD g.b 0)
  | .not => ~~~(values.getD g.a 0)
  | .move => values.getD g.a 0

/-- Evaluate a circuit, each gate from the values before it. -/
def runGates {w : Nat} : List Gate → List (Plane w) → List (Plane w)
  | [], values => values
  | g :: rest, values => runGates rest (values ++ [g.value values])

/-- A straight-line circuit: its gates, and the places where its outputs stand. -/
structure Circuit (n : Nat) where
  gates : List Gate
  outputs : Vector Nat n
  deriving DecidableEq, Repr

/-- What a circuit computes from its inputs. -/
def Circuit.eval {n w : Nat} (c : Circuit n) (inputs : List (Plane w)) : Vector (Plane w) n :=
  let values := runGates c.gates inputs
  tabulate n fun j => values.getD c.outputs[j] 0

/-- What a circuit executes. -/
def Circuit.trace {n : Nat} (c : Circuit n) : List Primitive := c.gates.map Gate.op

/-- Where the eight planes of a byte stand. -/
abbrev Places := Vector Nat 8

/-- Eight places in a row, from `n` on. -/
def placesFrom (n : Nat) : Places := tabulate 8 fun j => n + j.val

/-- XOR of two byte positions, plane by plane: eight gates. -/
def xorGates (a b : Places) : List Gate := (List.finRange 8).map fun j => ⟨.xor, a[j], b[j]⟩

/-- `XT` of a byte position: three gates (R122). -/
def xtGates (a : Places) : List Gate := [⟨.xor, a[0], a[7]⟩, ⟨.xor, a[2], a[7]⟩, ⟨.xor, a[3], a[7]⟩]

/-- Where `XT` of the byte at `a` stands, its three gates being at `n`, `n+1`, `n+2`. -/
def xtPlaces (a : Places) (n : Nat) : Places := #v[a[7], n, a[1], n + 1, n + 2, a[4], a[5], a[6]]

/-! ## The circuits as lists of gates -/

/-- Top linear layer of R102: 23 XOR. -/
def sboxTop : List Gate :=
  [⟨.xor, 4, 2⟩, ⟨.xor, 7, 1⟩, ⟨.xor, 7, 4⟩, ⟨.xor, 7, 2⟩, ⟨.xor, 6, 5⟩, ⟨.xor, 12, 0⟩, ⟨.xor, 13, 4⟩,
   ⟨.xor, 9, 8⟩, ⟨.xor, 13, 7⟩, ⟨.xor, 13, 1⟩, ⟨.xor, 17, 11⟩, ⟨.xor, 3, 15⟩, ⟨.xor, 19, 2⟩, ⟨.xor, 19, 6⟩,
   ⟨.xor, 20, 0⟩, ⟨.xor, 20, 12⟩, ⟨.xor, 21, 10⟩, ⟨.xor, 0, 24⟩, ⟨.xor, 23, 24⟩, ⟨.xor, 23, 11⟩, ⟨.xor, 12, 24⟩,
   ⟨.xor, 9, 28⟩, ⟨.xor, 7, 28⟩]

/-- Non-linear middle of R102, up to `t24`. -/
def sboxMiddleFirst : List Gate :=
  [⟨.and, 15, 20⟩, ⟨.and, 18, 22⟩, ⟨.xor, 32, 31⟩, ⟨.and, 14, 0⟩, ⟨.xor, 34, 31⟩, ⟨.and, 9, 28⟩, ⟨.and, 17, 13⟩,
   ⟨.xor, 37, 36⟩, ⟨.and, 16, 25⟩, ⟨.xor, 39, 36⟩, ⟨.and, 10, 24⟩, ⟨.and, 8, 26⟩, ⟨.xor, 42, 41⟩,
   ⟨.and, 11, 23⟩, ⟨.xor, 44, 41⟩, ⟨.xor, 33, 43⟩, ⟨.xor, 35, 45⟩, ⟨.xor, 38, 43⟩, ⟨.xor, 40, 45⟩,
   ⟨.xor, 46, 21⟩, ⟨.xor, 47, 27⟩, ⟨.xor, 48, 29⟩, ⟨.xor, 49, 30⟩]

/-- Non-linear middle of R102, `t25` to `t45`. -/
def sboxMiddleSecond : List Gate :=
  [⟨.xor, 50, 51⟩, ⟨.and, 50, 52⟩, ⟨.xor, 53, 55⟩, ⟨.and, 54, 56⟩, ⟨.xor, 57, 51⟩, ⟨.xor, 52, 53⟩,
   ⟨.xor, 51, 55⟩, ⟨.and, 60, 59⟩, ⟨.xor, 61, 53⟩, ⟨.xor, 52, 62⟩, ⟨.xor, 56, 62⟩, ⟨.and, 53, 64⟩,
   ⟨.xor, 65, 63⟩, ⟨.xor, 56, 65⟩, ⟨.and, 58, 67⟩, ⟨.xor, 54, 68⟩, ⟨.xor, 69, 66⟩, ⟨.xor, 58, 62⟩,
   ⟨.xor, 58, 69⟩, ⟨.xor, 62, 66⟩, ⟨.xor, 71, 70⟩]

/-- Non-linear middle of R102, `z0` to `z17`. -/
def sboxMiddleThird : List Gate :=
  [⟨.and, 73, 20⟩, ⟨.and, 66, 22⟩, ⟨.and, 62, 0⟩, ⟨.and, 72, 28⟩, ⟨.and, 69, 13⟩, ⟨.and, 58, 25⟩,
   ⟨.and, 71, 24⟩, ⟨.and, 74, 26⟩, ⟨.and, 70, 23⟩, ⟨.and, 73, 15⟩, ⟨.and, 66, 18⟩, ⟨.and, 62, 14⟩,
   ⟨.and, 72, 9⟩, ⟨.and, 69, 17⟩, ⟨.and, 58, 16⟩, ⟨.and, 71, 10⟩, ⟨.and, 74, 8⟩, ⟨.and, 70, 11⟩]

/-- Bottom linear layer of R102: 26 XOR, 4 XNOR. -/
def sboxBottom : List Gate :=
  [⟨.xor, 90, 91⟩, ⟨.xor, 85, 86⟩, ⟨.xor, 80, 88⟩, ⟨.xor, 84, 85⟩, ⟨.xor, 77, 87⟩, ⟨.xor, 77, 80⟩,
   ⟨.xor, 82, 83⟩, ⟨.xor, 75, 78⟩, ⟨.xor, 81, 82⟩, ⟨.xor, 91, 92⟩, ⟨.xor, 87, 95⟩, ⟨.xor, 97, 100⟩,
   ⟨.xor, 79, 93⟩, ⟨.xor, 78, 101⟩, ⟨.xor, 93, 104⟩, ⟨.xor, 89, 104⟩, ⟨.xor, 99, 105⟩, ⟨.xor, 96, 105⟩,
   ⟨.xor, 79, 106⟩, ⟨.xor, 108, 109⟩, ⟨.xor, 76, 110⟩, ⟨.xor, 106, 110⟩, ⟨.xnor, 103, 109⟩, ⟨.xnor, 95, 107⟩,
   ⟨.xor, 111, 112⟩, ⟨.xor, 100, 113⟩, ⟨.xor, 98, 113⟩, ⟨.xor, 94, 112⟩, ⟨.xnor, 111, 118⟩, ⟨.xnor, 102, 117⟩]

/-- `SBOX8` as a list of 115 gates, inputs `q[0..7]` at places 0 to 7 (R102). -/
def sboxGates : List Gate := sboxTop ++ sboxMiddleFirst ++ sboxMiddleSecond ++ sboxMiddleThird ++ sboxBottom

/-- `SBOX8` (R102). -/
def sboxCircuit : Circuit 8 := ⟨sboxGates, #v[116, 115, 120, 119, 118, 122, 121, 114]⟩

/-- `IA`: 16 XOR and 2 NOT (R105). -/
def invAffineCircuit : Circuit 8 :=
  ⟨[⟨.xor, 2, 5⟩, ⟨.xor, 8, 7⟩, ⟨.xor, 3, 6⟩, ⟨.xor, 10, 0⟩, ⟨.xor, 4, 7⟩, ⟨.xor, 12, 1⟩, ⟨.xor, 5, 0⟩,
   ⟨.xor, 14, 2⟩, ⟨.xor, 6, 1⟩, ⟨.xor, 16, 3⟩, ⟨.xor, 7, 2⟩, ⟨.xor, 18, 4⟩, ⟨.xor, 0, 3⟩, ⟨.xor, 20, 5⟩,
   ⟨.xor, 1, 4⟩, ⟨.xor, 22, 6⟩, ⟨.not, 9, 9⟩, ⟨.not, 13, 13⟩],
   #v[24, 11, 25, 15, 17, 19, 21, 23]⟩

/-- `XT` (R122). -/
def xtCircuit : Circuit 8 := ⟨xtGates (placesFrom 0), xtPlaces (placesFrom 0) 8⟩

/-- One output byte of `MIXCOLUMNS` from `a_r, a_(r+1), a_(r+2), a_(r+3)`: `XT(a_r ^ a_(r+1)) ^ a_(r+1) ^ a_(r+2) ^
a_(r+3)`, 35 gates (R125). -/
def mixByteCircuit : Circuit 8 :=
  ⟨xorGates (placesFrom 0) (placesFrom 8) ++ xtGates (placesFrom 32) ++
    xorGates (xtPlaces (placesFrom 32) 40) (placesFrom 8) ++ xorGates (placesFrom 43) (placesFrom 16) ++
    xorGates (placesFrom 51) (placesFrom 24), placesFrom 59⟩

/-- `a`, `XT(a)`, `XT2(a)`, `XT3(a)` of one byte, nine gates (R126). -/
def powersCircuit : Circuit 32 :=
  let x1 := xtPlaces (placesFrom 0) 8
  let x2 := xtPlaces x1 11
  let x3 := xtPlaces x2 14
  ⟨xtGates (placesFrom 0) ++ xtGates x1 ++ xtGates x2,
   tabulate 32 fun i => (#v[placesFrom 0, x1, x2, x3])[i.val / 8][i.val % 8]⟩

/-- One output byte of `INVMIXCOLUMNS` from the powers of `a_r, a_(r+1), a_(r+2), a_(r+3)`, power `e` of the `i`-th byte
at `32i + 8e`: the eleven-term sum `M14(a_r) ^ M11(a_(r+1)) ^ M13(a_(r+2)) ^ M9(a_(r+3))`, 80 gates (R126). -/
def invMixSumCircuit : Circuit 8 :=
  let input := fun i e => placesFrom (32 * i + 8 * e)
  let new := fun k => placesFrom (128 + 8 * k)
  ⟨xorGates (input 0 3) (input 0 2) ++ xorGates (new 0) (input 0 1) ++
    xorGates (input 1 3) (input 1 1) ++ xorGates (new 2) (input 1 0) ++ xorGates (new 1) (new 3) ++
    xorGates (input 2 3) (input 2 2) ++ xorGates (new 5) (input 2 0) ++ xorGates (new 4) (new 6) ++
    xorGates (input 3 3) (input 3 0) ++ xorGates (new 7) (new 8), new 9⟩

/-- `P[p] ^ RK[rk][p]` for all 128 planes, `P` first (R127). -/
def addRoundKeyCircuit : Circuit 128 :=
  ⟨(List.finRange 128).map fun i => ⟨.xor, i.val, 128 + i.val⟩, tabulate 128 fun i => 256 + i.val⟩

/-! ## Unit operations: what they compute by these circuits, and what they execute -/

/-- `INVSBOX8 = IA ∘ SBOX8 ∘ IA` by gates (R105). -/
def invSboxByGates {w : Nat} (q : Slice w) : Slice w :=
  invAffineCircuit.eval (sboxCircuit.eval (invAffineCircuit.eval q.toList).toList).toList

/-- The four bytes `a_r, a_(r+1), a_(r+2), a_(r+3)` that byte position `b` of the result depends on (R125, R126). -/
def columnFrom {w : Nat} (p : Batch w) (b : Fin 16) : List (Slice w) :=
  (List.range 4).map fun i => Batch.slice p (position (row b + i) (column b))

/-- The batch a unit operation makes of `P = p`, with round key `key`, evaluated gate by gate; the row shifts are wiring
(R123, R124), and the codec, which evaluates no gate, leaves `p` as it is. -/
def UnitOp.byGates {w : Nat} (key p : Batch w) : UnitOp → Batch w
  | .subBytes => Batch.ofSlices fun b => sboxCircuit.eval (Batch.slice p b).toList
  | .invSubBytes => Batch.ofSlices fun b => invSboxByGates (Batch.slice p b)
  | .shiftRows => Batch.ofSlices fun b => Batch.slice p (position (row b) (column b + row b))
  | .invShiftRows => Batch.ofSlices fun b => Batch.slice p (position (row b) (column b + 4 - row b))
  | .mixColumns => Batch.ofSlices fun b => mixByteCircuit.eval ((columnFrom p b).flatMap Vector.toList)
  | .invMixColumns => Batch.ofSlices fun b =>
      invMixSumCircuit.eval ((columnFrom p b).flatMap fun a => (powersCircuit.eval a.toList).toList)
  | .addRoundKey _ => addRoundKeyCircuit.eval (p.toList ++ key.toList)
  | .encode | .decode => p

/-- The bits the codec moves with `COUNT = count`, as (block, byte, bit): every bit of every block (R91, R92). -/
def codecMoves (count : Nat) : List (Nat × Fin 16 × Fin 8) :=
  (List.range count).flatMap fun k => (List.finRange 16).flatMap fun b => (List.finRange 8).map fun j => (k, b, j)

/-- A trace `n` times over. -/
def repeatTrace (n : Nat) (trace : List Primitive) : List Primitive := (List.replicate n trace).flatten

/-- What a unit operation executes with `COUNT = count`: the gates of the circuits `UnitOp.byGates` evaluates, the powers
of a column's four bytes once for its four output bytes (R126); the codec moves bits and evaluates no gate. -/
def UnitOp.trace (count : Nat) : UnitOp → List Primitive
  | .encode | .decode => (codecMoves count).map fun _ => .move
  | .subBytes => repeatTrace 16 sboxCircuit.trace
  | .invSubBytes => repeatTrace 16 (invAffineCircuit.trace ++ sboxCircuit.trace ++ invAffineCircuit.trace)
  | .shiftRows | .invShiftRows => []
  | .mixColumns => repeatTrace 16 mixByteCircuit.trace
  | .invMixColumns => repeatTrace 4 (repeatTrace 4 powersCircuit.trace ++ repeatTrace 4 invMixSumCircuit.trace)
  | .addRoundKey _ => addRoundKeyCircuit.trace

/-- What an accepted `ENCRYPT` executes (R160, R167). -/
def encryptTrace (nr count : Nat) : List Primitive := (encryptList nr).flatMap (UnitOp.trace count)

/-- What an accepted `DECRYPT` executes (R160, R167). -/
def decryptTrace (nr count : Nat) : List Primitive := (decryptList nr).flatMap (UnitOp.trace count)

/-! ## `EXPAND`, counting its evaluations of `S` -/

/-- `SubWord` by gates: four evaluations of `S` (R143). -/
def subWordByGates (a : KeyWord) : KeyWord :=
  tabulate 4 fun t => Slice.byte (sboxCircuit.eval (Slice.ofByte a[t]).toList) 0

/-- `keyStep` by gates, and how often it evaluates `S` (R142). -/
def countedStep (nk i : Nat) (prev : KeyWord) : KeyWord × Nat :=
  if i % nk = 0 then (KeyWord.xor (subWordByGates (rotWord prev)) #v[rcon (i / nk), 0, 0, 0], 4)
  else if nk = 8 ∧ i % nk = 4 then (subWordByGates prev, 4)
  else (prev, 0)

/-- The first `n` words of the expansion of the key in `m`, and how often `S` was evaluated for them (R142). -/
def countedWords (m : Memory) (nk : Nat) : Nat → List KeyWord × Nat
  | 0 => ([], 0)
  | i + 1 =>
    let (w, evaluations) := countedWords m nk i
    if i < nk then (w ++ [keyWord m i], evaluations)
    else
      let (x, more) := countedStep nk i (w.getD (i - 1) (Vector.replicate 4 0))
      (w ++ [KeyWord.xor (w.getD (i - nk) (Vector.replicate 4 0)) x], evaluations + more)

/-- The words `EXPAND` computes from `KEYBUF` and `KLEN`, and its evaluations of `S` (R141, R142). -/
def expandByGates (keybuf : Memory) (klen : Byte) : List KeyWord × Nat :=
  countedWords keybuf (keyWordCount klen) (4 * (roundCount klen + 1))

end Sys2Proof.Machine
end

