-- ==== Sys2Proof/Reference.lean ====
section
/-! DEFINITION. The byte-level functions the spec says the planes compute, lane by lane: what the obligations compare the
machine with (spec/00_scope.md R16, spec/41_sbox.md R100, R101, R104, spec/42_round_ops.md R123 to R127,
spec/43_key_schedule.md R142, R143, spec/44_orchestrator.md R161 to R163). The machine uses nothing of this file: it
holds no table and no scalar byte (R68, R101). -/

namespace Sys2Proof.Reference

/-! ## GF(2^8) -/

/-- `xtime(a)`: multiplication by `x`, that is `(a << 1) XOR (0x1B if the top bit was set else 0)` (R16). -/
def xtime (a : Byte) : Byte := (a <<< 1) ^^^ (if a.getLsbD 7 then 0x1B else 0)

/-- `xtime^i(a)` (R16). -/
def xtimes : Nat → Byte → Byte
  | 0, a => a
  | i + 1, a => xtime (xtimes i a)

/-- `m • a`: the XOR of `xtime^i(a)` over the set bits `i` of `m` (R16). -/
def times (m a : Byte) : Byte :=
  (List.range 8).foldl (fun acc i => if m.getLsbD i then acc ^^^ xtimes i a else acc) 0

/-! ## The S-box -/

/-- The affine step of the S-box: bit `i` is `x[i] ^ x[i+4] ^ x[i+5] ^ x[i+6] ^ x[i+7] ^ c[i]`, indices modulo 8,
`c = 0x63` (R100). -/
def affine (x : Byte) : Byte :=
  x ^^^ x.rotateLeft 4 ^^^ x.rotateLeft 3 ^^^ x.rotateLeft 2 ^^^ x.rotateLeft 1 ^^^ 0x63

/-- The table of `S` (R101), rows 0x to 7x. -/
def sboxTableLow : List Byte :=
  [0x63, 0x7c, 0x77, 0x7b, 0xf2, 0x6b, 0x6f, 0xc5, 0x30, 0x01, 0x67, 0x2b, 0xfe, 0xd7, 0xab, 0x76,
   0xca, 0x82, 0xc9, 0x7d, 0xfa, 0x59, 0x47, 0xf0, 0xad, 0xd4, 0xa2, 0xaf, 0x9c, 0xa4, 0x72, 0xc0,
   0xb7, 0xfd, 0x93, 0x26, 0x36, 0x3f, 0xf7, 0xcc, 0x34, 0xa5, 0xe5, 0xf1, 0x71, 0xd8, 0x31, 0x15,
   0x04, 0xc7, 0x23, 0xc3, 0x18, 0x96, 0x05, 0x9a, 0x07, 0x12, 0x80, 0xe2, 0xeb, 0x27, 0xb2, 0x75,
   0x09, 0x83, 0x2c, 0x1a, 0x1b, 0x6e, 0x5a, 0xa0, 0x52, 0x3b, 0xd6, 0xb3, 0x29, 0xe3, 0x2f, 0x84,
   0x53, 0xd1, 0x00, 0xed, 0x20, 0xfc, 0xb1, 0x5b, 0x6a, 0xcb, 0xbe, 0x39, 0x4a, 0x4c, 0x58, 0xcf,
   0xd0, 0xef, 0xaa, 0xfb, 0x43, 0x4d, 0x33, 0x85, 0x45, 0xf9, 0x02, 0x7f, 0x50, 0x3c, 0x9f, 0xa8,
   0x51, 0xa3, 0x40, 0x8f, 0x92, 0x9d, 0x38, 0xf5, 0xbc, 0xb6, 0xda, 0x21, 0x10, 0xff, 0xf3, 0xd2]

/-- The table of `S` (R101), rows 8x to fx. -/
def sboxTableHigh : List Byte :=
  [0xcd, 0x0c, 0x13, 0xec, 0x5f, 0x97, 0x44, 0x17, 0xc4, 0xa7, 0x7e, 0x3d, 0x64, 0x5d, 0x19, 0x73,
   0x60, 0x81, 0x4f, 0xdc, 0x22, 0x2a, 0x90, 0x88, 0x46, 0xee, 0xb8, 0x14, 0xde, 0x5e, 0x0b, 0xdb,
   0xe0, 0x32, 0x3a, 0x0a, 0x49, 0x06, 0x24, 0x5c, 0xc2, 0xd3, 0xac, 0x62, 0x91, 0x95, 0xe4, 0x79,
   0xe7, 0xc8, 0x37, 0x6d, 0x8d, 0xd5, 0x4e, 0xa9, 0x6c, 0x56, 0xf4, 0xea, 0x65, 0x7a, 0xae, 0x08,
   0xba, 0x78, 0x25, 0x2e, 0x1c, 0xa6, 0xb4, 0xc6, 0xe8, 0xdd, 0x74, 0x1f, 0x4b, 0xbd, 0x8b, 0x8a,
   0x70, 0x3e, 0xb5, 0x66, 0x48, 0x03, 0xf6, 0x0e, 0x61, 0x35, 0x57, 0xb9, 0x86, 0xc1, 0x1d, 0x9e,
   0xe1, 0xf8, 0x98, 0x11, 0x69, 0xd9, 0x8e, 0x94, 0x9b, 0x1e, 0x87, 0xe9, 0xce, 0x55, 0x28, 0xdf,
   0x8c, 0xa1, 0x89, 0x0d, 0xbf, 0xe6, 0x42, 0x68, 0x41, 0x99, 0x2d, 0x0f, 0xb0, 0x54, 0xbb, 0x16]

/-- The table of the inverse `S^-1` (R104), rows 0x to 7x. -/
def invSboxTableLow : List Byte :=
  [0x52, 0x09, 0x6a, 0xd5, 0x30, 0x36, 0xa5, 0x38, 0xbf, 0x40, 0xa3, 0x9e, 0x81, 0xf3, 0xd7, 0xfb,
   0x7c, 0xe3, 0x39, 0x82, 0x9b, 0x2f, 0xff, 0x87, 0x34, 0x8e, 0x43, 0x44, 0xc4, 0xde, 0xe9, 0xcb,
   0x54, 0x7b, 0x94, 0x32, 0xa6, 0xc2, 0x23, 0x3d, 0xee, 0x4c, 0x95, 0x0b, 0x42, 0xfa, 0xc3, 0x4e,
   0x08, 0x2e, 0xa1, 0x66, 0x28, 0xd9, 0x24, 0xb2, 0x76, 0x5b, 0xa2, 0x49, 0x6d, 0x8b, 0xd1, 0x25,
   0x72, 0xf8, 0xf6, 0x64, 0x86, 0x68, 0x98, 0x16, 0xd4, 0xa4, 0x5c, 0xcc, 0x5d, 0x65, 0xb6, 0x92,
   0x6c, 0x70, 0x48, 0x50, 0xfd, 0xed, 0xb9, 0xda, 0x5e, 0x15, 0x46, 0x57, 0xa7, 0x8d, 0x9d, 0x84,
   0x90, 0xd8, 0xab, 0x00, 0x8c, 0xbc, 0xd3, 0x0a, 0xf7, 0xe4, 0x58, 0x05, 0xb8, 0xb3, 0x45, 0x06,
   0xd0, 0x2c, 0x1e, 0x8f, 0xca, 0x3f, 0x0f, 0x02, 0xc1, 0xaf, 0xbd, 0x03, 0x01, 0x13, 0x8a, 0x6b]

/-- The table of the inverse `S^-1` (R104), rows 8x to fx. -/
def invSboxTableHigh : List Byte :=
  [0x3a, 0x91, 0x11, 0x41, 0x4f, 0x67, 0xdc, 0xea, 0x97, 0xf2, 0xcf, 0xce, 0xf0, 0xb4, 0xe6, 0x73,
   0x96, 0xac, 0x74, 0x22, 0xe7, 0xad, 0x35, 0x85, 0xe2, 0xf9, 0x37, 0xe8, 0x1c, 0x75, 0xdf, 0x6e,
   0x47, 0xf1, 0x1a, 0x71, 0x1d, 0x29, 0xc5, 0x89, 0x6f, 0xb7, 0x62, 0x0e, 0xaa, 0x18, 0xbe, 0x1b,
   0xfc, 0x56, 0x3e, 0x4b, 0xc6, 0xd2, 0x79, 0x20, 0x9a, 0xdb, 0xc0, 0xfe, 0x78, 0xcd, 0x5a, 0xf4,
   0x1f, 0xdd, 0xa8, 0x33, 0x88, 0x07, 0xc7, 0x31, 0xb1, 0x12, 0x10, 0x59, 0x27, 0x80, 0xec, 0x5f,
   0x60, 0x51, 0x7f, 0xa9, 0x19, 0xb5, 0x4a, 0x0d, 0x2d, 0xe5, 0x7a, 0x9f, 0x93, 0xc9, 0x9c, 0xef,
   0xa0, 0xe0, 0x3b, 0x4d, 0xae, 0x2a, 0xf5, 0xb0, 0xc8, 0xeb, 0xbb, 0x3c, 0x83, 0x53, 0x99, 0x61,
   0x17, 0x2b, 0x04, 0x7e, 0xba, 0x77, 0xd6, 0x26, 0xe1, 0x69, 0x14, 0x63, 0x55, 0x21, 0x0c, 0x7d]

/-- `S(a)` by the table (R101). -/
def S (a : Byte) : Byte := (sboxTableLow ++ sboxTableHigh).getD a.toNat 0

/-- `S^-1(a)` by the table (R104). -/
def invS (a : Byte) : Byte := (invSboxTableLow ++ invSboxTableHigh).getD a.toNat 0

/-! ## Blocks: byte `b` is state row `b mod 4`, column `b div 4` (R22) -/

/-- A block of 16 bytes. -/
abbrev Block := Vector Byte 16

/-- The byte at row `r`, column `c`, both modulo 4 (R22). -/
def Block.at (a : Block) (r c : Nat) : Byte := a[r % 4 + 4 * (c % 4)]

/-- The block whose byte at row `r`, column `c` is `f r c`. -/
def Block.ofRows (f : Nat → Nat → Byte) : Block := tabulate 16 fun b => f (b.val % 4) (b.val / 4)

def subBytes (a : Block) : Block := Block.ofRows fun r c => S (Block.at a r c)

def invSubBytes (a : Block) : Block := Block.ofRows fun r c => invS (Block.at a r c)

/-- The byte in column `c + r` moves to column `c` (R123). -/
def shiftRows (a : Block) : Block := Block.ofRows fun r c => Block.at a r (c + r)

/-- The byte in column `c - r` moves to column `c`, modulo 4 (R124). -/
def invShiftRows (a : Block) : Block := Block.ofRows fun r c => Block.at a r (c + 4 - r)

/-- Row `r` of a column is `2•a_r ^ 3•a_(r+1) ^ a_(r+2) ^ a_(r+3)` (R125). -/
def mixColumns (a : Block) : Block :=
  Block.ofRows fun r c =>
    times 2 (Block.at a r c) ^^^ times 3 (Block.at a (r + 1) c) ^^^ Block.at a (r + 2) c ^^^ Block.at a (r + 3) c

/-- Row `r` of a column is `14•a_r ^ 11•a_(r+1) ^ 13•a_(r+2) ^ 9•a_(r+3)` (R126). -/
def invMixColumns (a : Block) : Block :=
  Block.ofRows fun r c =>
    times 14 (Block.at a r c) ^^^ times 11 (Block.at a (r + 1) c) ^^^ times 13 (Block.at a (r + 2) c) ^^^
      times 9 (Block.at a (r + 3) c)

def addRoundKey (key a : Block) : Block := tabulate 16 fun b => a[b] ^^^ key[b]

/-! ## The cipher -/

/-- Rounds 1 to `r`, each SubBytes, ShiftRows, MixColumns, AddRoundKey (R161). -/
def fullRounds (key : Nat → Block) : Nat → Block → Block
  | 0, a => a
  | r + 1, a => addRoundKey (key (r + 1)) (mixColumns (shiftRows (subBytes (fullRounds key r a))))

/-- AES encryption of one block with round keys `key 0 .. key nr` (R161, R162). -/
def cipher (nr : Nat) (key : Nat → Block) (a : Block) : Block :=
  addRoundKey (key nr) (shiftRows (subBytes (fullRounds key (nr - 1) (addRoundKey (key 0) a))))

/-- The first `m` mirrored rounds, with round keys `nr - 1` down to `nr - m` (R163). -/
def mirroredRounds (nr : Nat) (key : Nat → Block) : Nat → Block → Block
  | 0, a => a
  | m + 1, a =>
    invMixColumns (addRoundKey (key (nr - (m + 1))) (invSubBytes (invShiftRows (mirroredRounds nr key m a))))

/-- AES decryption of one block (R163). -/
def invCipher (nr : Nat) (key : Nat → Block) (a : Block) : Block :=
  addRoundKey (key 0) (invSubBytes (invShiftRows (mirroredRounds nr key (nr - 1) (addRoundKey (key nr) a))))

/-! ## The key schedule -/

/-- What is XORed into `w[i-Nk]`, given `t = w[i-1]` (R142, R143); `Rcon(m) = xtime^(m-1)(0x01)`. -/
def scheduleStep (nk i : Nat) (t : KeyWord) : KeyWord :=
  if i % nk = 0 then #v[S t[1] ^^^ xtimes (i / nk - 1) 1, S t[2], S t[3], S t[0]]
  else if nk = 8 ∧ i % nk = 4 then #v[S t[0], S t[1], S t[2], S t[3]]
  else t

/-- `w` is the expansion of `key` with `Nk = nk`, as far as `n` words: the recurrence of R142. -/
def IsSchedule (key : Nat → Byte) (nk n : Nat) (w : Nat → KeyWord) : Prop :=
  (∀ i < nk, ∀ t : Fin 4, (w i)[t] = key (4 * i + t.val)) ∧
    ∀ i < n, nk ≤ i → ∀ t : Fin 4, (w i)[t] = (w (i - nk))[t] ^^^ (scheduleStep nk i (w (i - 1)))[t]

end Sys2Proof.Reference
end

