-- ==== Sys2Proof/Safety.lean ====
section
/-! DEFINITION. The invariant of the core's states, what a host that keeps to the rules does, and the views of a state
that the obligations speak of. -/

namespace Sys2Proof.Machine

/-! ## The invariant -/

/-- Every plane is `rep` of one bit: all lanes alike (R26). -/
abbrev Replicated {w : Nat} (b : Batch w) : Prop := ∀ p : Fin 128, b[p] = 0 ∨ b[p] = BitVec.allOnes w

/-- A round key, if there is one, is replicated across the lanes (R26). -/
def keyReplicated {w : Nat} (key : Option (Batch w)) : Bool :=
  match key with
  | some b => decide (Replicated b)
  | none => true

/-- A buffer is in canonical form and lists only offsets it has (R50). -/
abbrev BufferOk (cfg : Config) (space : Space) (m : Memory) : Prop :=
  Memory.wf m = true ∧ Memory.within (space.size cfg) m = true

/-- `NR` is 10, 12 or 14 with a schedule, and 0 without (R28). -/
abbrev State.RoundCountOk (s : State) : Prop :=
  if s.kvalid = true then s.nr = 10 ∨ s.nr = 12 ∨ s.nr = 14 else s.nr = 0

/-- `RK[0..NR]` hold values exactly when `KVALID = 1`, the entries above `NR` hold none, and every round key is
replicated across the lanes (R26, R27, R29). -/
abbrev State.RoundKeysOk (s : State) : Prop :=
  (∀ rk : Fin 15, s.rk[rk].isSome = true ↔ (s.kvalid = true ∧ rk.val ≤ s.nr.toNat)) ∧
    ∀ rk : Fin 15, keyReplicated s.rk[rk] = true

/-- What holds of the core between the host's actions. -/
abbrev State.Inv (s : State) : Prop :=
  (s.pvalid = true ↔ s.p.isSome = true) ∧ s.RoundCountOk ∧ s.RoundKeysOk ∧ s.seq = 0 ∧
    BufferOk s.cfg .keybuf s.keybuf ∧ BufferOk s.cfg .din s.din ∧ BufferOk s.cfg .dout s.dout

/-! ## Conditions on a state -/

/-- `1 ≤ COUNT ≤ W` (R33, R182). -/
abbrev State.LegalCount (s : State) : Prop := 1 ≤ s.count.toNat ∧ s.count.toNat ≤ s.cfg.W

/-- `KLEN` is 16, 24 or 32 (R32). -/
abbrev State.LegalKeyLength (s : State) : Prop := s.klen = 16 ∨ s.klen = 24 ∨ s.klen = 32

/-- The nine unit operations (R70). -/
def Instr.isUnit : Instr → Bool
  | .expand | .encrypt | .decrypt => false
  | .encode | .decode | .subbytes | .invsubbytes | .shiftrows | .invshiftrows | .mixcolumns | .invmixcolumns => true
  | .addroundkey _ => true

/-- The operations that read `COUNT` (R33). -/
def Instr.readsCount : Instr → Bool
  | .encode | .decode | .encrypt | .decrypt => true
  | .expand | .subbytes | .invsubbytes | .shiftrows | .invshiftrows | .mixcolumns | .invmixcolumns => false
  | .addroundkey _ => false

/-- The operations that read `P` as an operand (R187). -/
def Instr.readsBatch : Instr → Bool
  | .expand | .encrypt | .decrypt | .encode => false
  | .decode | .subbytes | .invsubbytes | .shiftrows | .invshiftrows | .mixcolumns | .invmixcolumns => true
  | .addroundkey _ => true

/-- The operations that read a key schedule (R187). -/
def Instr.readsSchedule : Instr → Bool
  | .encrypt | .decrypt | .addroundkey _ => true
  | .expand | .encode | .decode | .subbytes | .invsubbytes | .shiftrows | .invshiftrows => false
  | .mixcolumns | .invmixcolumns => false

/-- The situations of R187's list that concern an operation: a unit operation at the public level, no schedule, no such
round key, no batch. -/
def RefusedBySpec (i : Instr) (s : State) : Prop :=
  (Instr.isUnit i = true ∧ s.cfg.level = .publicLevel) ∨ (Instr.readsSchedule i = true ∧ s.kvalid = false) ∨
    (∃ rk, i = .addroundkey rk ∧ s.nr.toNat < rk) ∨ (Instr.readsBatch i = true ∧ s.pvalid = false)

/-- What a host does that keeps to the public level and to the buffers it has (R187, R212): it issues `EXPAND`,
`ENCRYPT`, `DECRYPT` only and applies no reset. -/
def HostAction.keepsToPublic (cfg : Config) : HostAction → Bool
  | .command w => w = 0x01 || (w = 0x02 || w = 0x03)
  | .writeKeybuf off _ => decide (off < Space.size cfg .keybuf)
  | .writeDin off _ => decide (off < Space.size cfg .din)
  | .writeKlen _ | .writeCount _ => true
  | .reset => false

/-! ## Views -/

/-- The block in lane `k` of a batch (R21, R23). -/
def Batch.block {w : Nat} (p : Batch w) (k : Nat) : Reference.Block := tabulate 16 fun b => Batch.byte p b k

/-- Block `k` of a buffer (R51). -/
def Memory.block (m : Memory) (k : Nat) : Reference.Block :=
  tabulate 16 fun b => Memory.read m (blockOffset k b.val)

/-- A round key as 16 bytes, read in lane 0, all lanes being alike (R26, R144); zeros where there is none, which no
statement reads. -/
def keyBlock {w : Nat} (key : Option (Batch w)) : Reference.Block :=
  match key with
  | some b => Batch.block b 0
  | none => Vector.replicate 16 0

/-- Round key `rk` of a state as 16 bytes. -/
def State.roundKey (s : State) (rk : Nat) : Reference.Block := keyBlock (s.roundKeyPlanes rk)

/-- The host copies `DOUT[0..16n-1]` to `DIN[0..16n-1]` (R165). -/
def State.copyOut (s : State) (n : Nat) : State :=
  s.setDin (Memory.writeBytes s.din 0 (Memory.readBytes s.dout 0 (16 * n)))

/-- Issue operations one after the other (R61). -/
def execAll : List Instr → State → Result
  | [], s => .next s
  | i :: rest, s =>
    match exec i s with
    | .next t => execAll rest t
    | .fault r => .fault r
    | .refused r => .refused r

end Sys2Proof.Machine
end

