-- ==== Sys2Proof/Certificates/Slice0/Obligations.lean ====
section
/-! DEFINITION. The statements for the provers. A state `s` ranges over every batch width `W` and both interface levels
(`s.cfg`), over every content of every register and buffer, and over every script of host actions. -/

open Sys2Proof Sys2Proof.Machine

/-! ## The command word -/

/-- Every well-formed operation is what its command word decodes to, with every round-key index (R71, R72, R73). -/
def Obligations.DecodeOfEncode : Prop :=
  ∀ i : Instr, WellFormed i → decode (encode i) = .ok i

/-- A word that decodes to an operation is that operation's only word, and the operation is well-formed (R72). -/
def Obligations.EncodeOfDecode : Prop :=
  ∀ (w : Byte) (i : Instr), decode w = .ok i → encode i = w ∧ WellFormed i

/-- R75: which words are reserved, that there are 229 of them, that a reserved word is refused, and that the words
`rrrr 1100` decode as `ADDROUNDKEY rk` and are then refused by the operation itself when `rk > NR`. -/
def Obligations.ReservedWordsAreRefused : Prop :=
  (∀ w : Byte, (∃ e, decode w = .error e) ↔
      (w.toNat % 16 = 0 ∨ 13 ≤ w.toNat % 16) ∨ (w.toNat % 16 ≠ 12 ∧ w.toNat / 16 ≠ 0)) ∧
  ((List.range 256).filter fun w => (decodeTableWord 8 w).isNone).length = 229 ∧
  (∀ w : Byte, w.toNat % 16 = 12 → decode w = .ok (.addroundkey (w.toNat / 16))) ∧
  (∀ (w : Byte) (e : Reserved) (s : State), decode w = .error e → issue w s = .refused (.reservedWord w)) ∧
  (∀ (rk : Nat) (s : State), s.nr.toNat < rk → ∃ r, exec (.addroundkey rk) s = .refused r)

/-- Words written out from the table of R72 decode to the operations they stand for. -/
def Obligations.WordsOfTheTableDecode : Prop :=
  decode 0b00000001 = .ok .expand ∧ decode 0b00000010 = .ok .encrypt ∧ decode 0b00000011 = .ok .decrypt ∧
  decode 0b00000100 = .ok .encode ∧ decode 0b00000101 = .ok .decode ∧ decode 0b00000110 = .ok .subbytes ∧
  decode 0b00001001 = .ok .invshiftrows ∧ decode 0b00001010 = .ok .mixcolumns ∧
  decode 0b00111100 = .ok (.addroundkey 3) ∧ decode 0b11111100 = .ok (.addroundkey 15)

/-! ## Steps -/

/-- A step whose host action is a command word that decodes to `i` is `exec i` (R31, R61). That the actions are a script
held in State whose front action a step takes off, and that `withFetchWord` puts a command word there, are the model's
choices (assumption log 5). -/
def Obligations.StepRunsTheDecodedCommand : Prop :=
  ∀ (s : State) (w : Byte) (i : Instr), decode w = .ok i →
    (∀ rest, s.host = .command w :: rest → step s = exec i (s.setHost rest)) ∧
    step (s.withFetchWord 8 w.toNat) = exec i s

/-- Host writes to the ports (R32 to R35), and the idle core (R200). An offset the buffer does not have faults, which is
the model's choice (assumption log 6), as are idling with no action pending and the script itself (log 5). -/
def Obligations.HostWritesReachTheirPort : Prop :=
  ∀ (s : State) (rest : List HostAction) (off : Nat) (v : Byte), s.Inv →
    (s.host = [] → step s = .next s) ∧
    (s.host = .writeKlen v :: rest → step s = .next ((s.setHost rest).setKlen v)) ∧
    (s.host = .writeCount v :: rest → step s = .next ((s.setHost rest).setCount v)) ∧
    (s.host = .writeKeybuf off v :: rest →
      (off < 32 → ∃ m, step s = .next ((s.setHost rest).setKeybuf m) ∧
        ∀ a, Memory.read m a = if a = off then v else Memory.read s.keybuf a) ∧
      (32 ≤ off → step s = .fault (.outsideBuffer .keybuf off))) ∧
    (s.host = .writeDin off v :: rest →
      (off < 16 * s.cfg.W → ∃ m, step s = .next ((s.setHost rest).setDin m) ∧
        ∀ a, Memory.read m a = if a = off then v else Memory.read s.din a) ∧
      (16 * s.cfg.W ≤ off → step s = .fault (.outsideBuffer .din off)))

/-- The state after reset, of the reset constant and of a reset event in a run (R39, R211). Which core `State.reset` is
(assumption log 1), that its buffers list nothing (log 2), and that the script goes on after a reset event (log 10) are the
model's choices. -/
def Obligations.ResetLeavesTheResetValues : Prop :=
  (∀ (cfg : Config) (keybuf din dout : Memory), let t := State.resetOf cfg keybuf din dout
    t.kvalid = false ∧ t.pvalid = false ∧ t.err = .success ∧ t.nr = 0 ∧ t.seq = 0 ∧ t.klen = 0 ∧ t.count = 0 ∧
    t.p = none ∧ (∀ rk : Fin 15, t.rk[rk] = none) ∧ t.keybuf = keybuf ∧ t.din = din ∧ t.dout = dout) ∧
  State.reset = State.resetOf Config.reference [] [] [] ∧
  ∀ (s : State) (rest : List HostAction), s.host = .reset :: rest →
    ∃ t, step s = .next t ∧ t.cfg = s.cfg ∧ t.host = rest ∧
      t.kvalid = false ∧ t.pvalid = false ∧ t.err = .success ∧ t.nr = 0 ∧ t.seq = 0 ∧ t.klen = 0 ∧ t.count = 0 ∧
      t.p = none ∧ ∀ rk : Fin 15, t.rk[rk] = none

/-! ## Invariants and whole-machine rules -/

/-- The invariant holds right after reset, whatever the buffers hold and for every `W` and level (R39). -/
def Obligations.ResetMeetsTheInvariant : Prop :=
  State.reset.Inv ∧
  ∀ (cfg : Config) (keybuf din dout : Memory), BufferOk cfg .keybuf keybuf → BufferOk cfg .din din →
    BufferOk cfg .dout dout → (State.resetOf cfg keybuf din dout).Inv

/-- Every step keeps the invariant: `PVALID` says whether `P` holds a value; `NR` is 10, 12 or 14 with a schedule and 0
without; exactly `RK[0..NR]` hold values, every plane of them all zeros or all ones; `SEQ = 0`; the buffers keep their
canonical form and size (R26 to R30, R34 to R36). -/
def Obligations.StepKeepsTheInvariant : Prop :=
  ∀ s t : State, s.Inv → step s = .next t → t.Inv

/-- No step changes `W` or the interface level (R8, R81, R195). -/
def Obligations.StepKeepsTheParameters : Prop :=
  ∀ s t : State, step s = .next t → t.cfg = s.cfg

/-- `KVALID` and `PVALID` are never cleared except by reset (R29, R211). -/
def Obligations.OnlyResetClearsTheValidFlags : Prop :=
  ∀ s t : State, step s = .next t → (∀ rest, s.host ≠ .reset :: rest) →
    (s.kvalid = true → t.kvalid = true) ∧ (s.pvalid = true → t.pvalid = true)

/-- What each operation may write, and that every other register and every other byte stays (R56, R27, R32 to R36). -/
def Obligations.OperationsWriteOnlyTheirResults : Prop :=
  ∀ (i : Instr) (s t : State), s.Inv → exec i s = .next t →
    match i with
    | .expand => ∃ rk nr kv e, t = { s with rk := rk, nr := nr, kvalid := kv, err := e }
    | .encode => ∃ p pv e, t = { s with p := p, pvalid := pv, err := e }
    | .decode => ∃ m e, t = { s with dout := m, err := e } ∧
        ∀ a, 16 * s.count.toNat ≤ a → Memory.read m a = Memory.read s.dout a
    | .encrypt | .decrypt => ∃ p pv m e, t = { s with p := p, pvalid := pv, dout := m, err := e } ∧
        ∀ a, 16 * s.count.toNat ≤ a → Memory.read m a = Memory.read s.dout a
    | .subbytes | .invsubbytes | .shiftrows | .invshiftrows | .mixcolumns | .invmixcolumns | .addroundkey _ =>
        ∃ p e, t = { s with p := p, err := e }

/-- No operation faults: the spec's two errors are next states (R95, R180, R183). -/
def Obligations.OperationsNeverFault : Prop :=
  ∀ (i : Instr) (s : State) (r : Fault), exec i s ≠ .fault r

/-! ## Errors and refusals -/

/-- R146: a failed `EXPAND` changes nothing but `ERR`. -/
def Obligations.ExpandRejectsOtherKeyLengths : Prop :=
  ∀ s : State, ¬s.LegalKeyLength → exec .expand s = .next (s.setErr .invalidKeyLength)

/-- R182, R185: with a bad `COUNT` each of the four operations that read it raises `InvalidBatchSize` and changes
nothing but `ERR`, once nothing is refused. -/
def Obligations.BadCountRaisesInvalidBatchSize : Prop :=
  ∀ s : State, s.Inv → ¬s.LegalCount →
    (s.cfg.level = .unitLevel → exec .encode s = .next (s.setErr .invalidBatchSize)) ∧
    (s.cfg.level = .unitLevel → s.pvalid = true → exec .decode s = .next (s.setErr .invalidBatchSize)) ∧
    (s.kvalid = true → exec .encrypt s = .next (s.setErr .invalidBatchSize)) ∧
    (s.kvalid = true → exec .decrypt s = .next (s.setErr .invalidBatchSize))

/-- R181: `InvalidKeyLength`, code 1, is raised by `EXPAND` and by no other operation, exactly when `KLEN` is not 16, 24
or 32, and records nothing besides the code. -/
def Obligations.InvalidKeyLengthExactlyWhen : Prop :=
  Err.code .invalidKeyLength = 1 ∧
  ∀ (i : Instr) (s t : State), exec i s = .next t →
    (t.err = .invalidKeyLength ↔ i = .expand ∧ ¬s.LegalKeyLength) ∧
    (t.err = .invalidKeyLength → t = s.setErr .invalidKeyLength)

/-- R182: `InvalidBatchSize`, code 2, is raised by `ENCODE`, `DECODE`, `ENCRYPT` and `DECRYPT`, and by no other
operation, exactly when `COUNT = 0` or `COUNT > W`, and records nothing besides the code. -/
def Obligations.InvalidBatchSizeExactlyWhen : Prop :=
  Err.code .invalidBatchSize = 2 ∧
  ∀ (i : Instr) (s t : State), exec i s = .next t →
    (t.err = .invalidBatchSize ↔ Instr.readsCount i = true ∧ (s.count.toNat = 0 ∨ s.cfg.W < s.count.toNat)) ∧
    (t.err = .invalidBatchSize → t = s.setErr .invalidBatchSize)

/-- R183: an operation that raises an error leaves the state before the command with `ERR` replaced by the code of the
error, and nothing else changed: no register, flag, plane, buffer byte or sequencer position. -/
def Obligations.RaisingChangesOnlyErr : Prop :=
  ∀ (i : Instr) (s t : State), exec i s = .next t → t.err ≠ .success → t = s.setErr t.err

/-- R187's list, complete for the operations: in a state the core can be in, an operation is refused exactly in the
situations of the list. -/
def Obligations.RefusalsAreExactlyTheList : Prop :=
  ∀ (i : Instr) (s : State), s.Inv → ((∃ r, exec i s = .refused r) ↔ RefusedBySpec i s)

/-- R80: at the public level a unit operation is refused, and level gating refuses nothing else: no public operation at
either level, and none of the twelve at the unit level. -/
def Obligations.UnitOperationsNeedTheUnitLevel : Prop :=
  ∀ (i : Instr) (s : State),
    (Instr.isUnit i = true → s.cfg.level = .publicLevel → ∃ r, exec i s = .refused r) ∧
    (exec i s = .refused .unitAtPublicLevel → Instr.isUnit i = true ∧ s.cfg.level = .publicLevel)

/-- A host that keeps to the public level and to the buffers' sizes, on a core with a key schedule, meets neither a
refusal nor a fault, however long it runs and whatever data it writes (R187, R212). The script, and the idle steps after
its end, are the model's choice (assumption log 5). -/
def Obligations.PublicHostIsNeverRefused : Prop :=
  ∀ (s : State) (n : Nat), s.Inv → s.kvalid = true →
    (∀ a ∈ s.host, HostAction.keepsToPublic s.cfg a = true) → ∃ t : State, Host.Core.run Sys2Proof.core n s = .next t

/-- One step of such a host: from a state that meets the invariant, with a key schedule and a script that keeps to the
public level, a step gives a next state that meets the same three (R187, R212). The script, and the idle step at its end,
are the model's choice (assumption log 5). -/
def Obligations.PublicHostStepKeepsGoing : Prop :=
  ∀ s : State, s.Inv → s.kvalid = true → (∀ a ∈ s.host, HostAction.keepsToPublic s.cfg a = true) →
    ∃ t : State, step s = .next t ∧ t.Inv ∧ t.kvalid = true ∧ ∀ a ∈ t.host, HostAction.keepsToPublic t.cfg a = true

/-- The fields of `STATUS` (R29), and which ports the host sees at each level (R40). -/
def Obligations.HostReadsThePorts : Prop :=
  ∀ s : State,
    hostRead s .status = some s.status ∧ s.status.getLsbD 0 = s.kvalid ∧ s.status.getLsbD 1 = s.pvalid ∧
    s.status.extractLsb' 2 2 = s.err.code ∧ s.status.extractLsb' 4 4 = s.nr ∧
    (s.cfg.level = .unitLevel → hostRead s .seq = some (s.seq.setWidth 8)) ∧
    (s.cfg.level = .publicLevel → hostRead s .seq = none) ∧
    hostRead s .klen = some s.klen ∧ hostRead s .count = some s.count ∧
    (∀ off, off < 32 → hostRead s (.keybuf off) = some (Memory.read s.keybuf off)) ∧
    (∀ off, off < 16 * s.cfg.W → hostRead s (.din off) = some (Memory.read s.din off)) ∧
    (∀ off, off < 16 * s.cfg.W → hostRead s (.dout off) = some (Memory.read s.dout off))

/-! ## The key schedule -/

/-- `EXPAND` with 16, 24 or 32 key bytes: `NR = KLEN/4 + 6`, `KVALID = 1`, `ERR = 0`, and `RK[0..NR]` hold the words of the
standard recurrence in plane form, every lane alike, the entries above `NR` no value; nothing else changes (R141 to
R144, R26, R27). -/
def Obligations.ExpandBuildsTheSchedule : Prop :=
  ∀ s : State, s.LegalKeyLength →
    ∃ (file : Vector (Option (Batch s.cfg.W)) 15) (w : Nat → KeyWord),
      exec .expand s = .next ((s.setSchedule (BitVec.ofNat 4 (s.klen.toNat / 4 + 6)) file).setErr .success) ∧
      Reference.IsSchedule (fun i => Memory.read s.keybuf i) (s.klen.toNat / 4) (4 * (s.klen.toNat / 4 + 7)) w ∧
      ∀ rk : Fin 15,
        (rk.val ≤ s.klen.toNat / 4 + 6 → ∃ key : Batch s.cfg.W, file[rk] = some key ∧
          ∀ (b : Fin 16) (j : Fin 8),
            key[8 * b.val + j.val] = rep s.cfg.W (((w (4 * rk.val + b.val / 4))[b.val % 4]).getLsbD j.val)) ∧
        (s.klen.toNat / 4 + 6 < rk.val → file[rk] = none)

/-! ## The codec -/

/-- `ENCODE` with a legal `COUNT`: bit `k` of plane `8b + j` is bit `j` of byte `b` of block `k`, zero in the lanes from
`COUNT` on; `PVALID = 1`, `ERR = 0`; nothing else changes (R91, R23). -/
def Obligations.EncodeFillsThePlanes : Prop :=
  ∀ s : State, s.cfg.level = .unitLevel → s.LegalCount →
    ∃ p : Batch s.cfg.W, exec .encode s = .next (((s.setP p).setPvalid true).setErr .success) ∧
      ∀ (b : Fin 16) (j : Fin 8) (k : Nat), k < s.cfg.W →
        (p[8 * b.val + j.val]).getLsbD k =
          (decide (k < s.count.toNat) && (Memory.read s.din (16 * k + b.val)).getLsbD j.val)

/-- `DECODE` with a legal `COUNT`: bit `j` of byte `b` of block `k` is bit `k` of plane `8b + j`, for the blocks below
`COUNT`; every other byte of `DOUT` and every register but `ERR` stays (R92). -/
def Obligations.DecodeExtractsTheBlocks : Prop :=
  ∀ (s : State) (p : Batch s.cfg.W), s.Inv → s.cfg.level = .unitLevel → s.p = some p → s.LegalCount →
    ∃ m : Memory, exec .decode s = .next ((s.setDout m).setErr .success) ∧
      (∀ (k : Nat) (b : Fin 16) (j : Fin 8), k < s.count.toNat →
        (Memory.read m (16 * k + b.val)).getLsbD j.val = (p[8 * b.val + j.val]).getLsbD k) ∧
      ∀ a, 16 * s.count.toNat ≤ a → Memory.read m a = Memory.read s.dout a

/-- R93: `ENCODE` then `DECODE` with the same `COUNT` leaves the blocks of `DIN` in `DOUT`; conversely `ENCODE` of what
`DECODE` gave restores lanes `0..COUNT-1` of `P` and zeroes the rest. -/
def Obligations.CodecRoundTrip : Prop :=
  ∀ s : State, s.Inv → s.cfg.level = .unitLevel → s.LegalCount →
    (∃ t, execAll [.encode, .decode] s = .next t ∧
      ∀ a, a < 16 * s.count.toNat → Memory.read t.dout a = Memory.read s.din a) ∧
    ∀ p : Batch s.cfg.W, s.p = some p →
      ∃ t u q, exec .decode s = .next t ∧ exec .encode (t.copyOut s.count.toNat) = .next u ∧ u.p = some q ∧
        ∀ k, k < s.cfg.W →
          Batch.block q k = if k < s.count.toNat then Batch.block p k else Vector.replicate 16 0

/-! ## The S-box -/

/-- R107: at every width and lane the circuit gives the table of R101 and the inverse circuit the table of R104, and
each undoes the other on all plane values. -/
def Obligations.SboxCircuitsMeetTheTables : Prop :=
  ∀ (w : Nat) (q : Slice w),
    (∀ k, k < w → Slice.byte (sbox8 q) k = Reference.S (Slice.byte q k)) ∧
    (∀ k, k < w → Slice.byte (invSbox8 q) k = Reference.invS (Slice.byte q k)) ∧
    invSbox8 (sbox8 q) = q ∧ sbox8 (invSbox8 q) = q

/-- R100: the S-box is the affine step of the multiplicative inverse in GF(2^8), with `inv(0) = 0`. -/
def Obligations.SboxIsAffineOfInverse : Prop :=
  sboxByte 0 = Reference.affine 0 ∧
  ∀ a : Byte, a ≠ 0 → ∃ x : Byte, Reference.times a x = 1 ∧ sboxByte a = Reference.affine x

/-- `SUBBYTES`: every byte of every lane goes through the table of R101; nothing but `P` and `ERR` changes (R103). -/
def Obligations.SubBytesSubstitutesEveryByte : Prop :=
  ∀ (s : State) (p : Batch s.cfg.W), s.cfg.level = .unitLevel → s.pvalid = true → s.p = some p →
    ∃ q : Batch s.cfg.W, exec .subbytes s = .next ((s.setP q).setErr .success) ∧
      ∀ (b : Fin 16) (k : Nat), k < s.cfg.W → Batch.byte q b k = Reference.S (Batch.byte p b k)

/-- `INVSUBBYTES`: every byte of every lane goes through the table of R104; nothing but `P` and `ERR` changes (R106). -/
def Obligations.InvSubBytesSubstitutesEveryByte : Prop :=
  ∀ (s : State) (p : Batch s.cfg.W), s.cfg.level = .unitLevel → s.pvalid = true → s.p = some p →
    ∃ q : Batch s.cfg.W, exec .invsubbytes s = .next ((s.setP q).setErr .success) ∧
      ∀ (b : Fin 16) (k : Nat), k < s.cfg.W → Batch.byte q b k = Reference.invS (Batch.byte p b k)

/-! ## The round operations -/

/-- `XT` and the constant multipliers built from it: in every lane multiply-by-2 is `xtime`, and the four sums of
`INVMIXCOLUMNS` are multiplication by 9, 11, 13 and 14 (R122, R126, R16). -/
def Obligations.ConstantMultipliersMultiply : Prop :=
  ∀ (w : Nat) (a : Slice w) (k : Nat), k < w →
    Slice.byte (xt a) k = Reference.xtime (Slice.byte a k) ∧
    Slice.byte (Slice.xor (xt a) a) k = Reference.times 3 (Slice.byte a k) ∧
    Slice.byte (mul9 a) k = Reference.times 9 (Slice.byte a k) ∧
    Slice.byte (mul11 a) k = Reference.times 11 (Slice.byte a k) ∧
    Slice.byte (mul13 a) k = Reference.times 13 (Slice.byte a k) ∧
    Slice.byte (mul14 a) k = Reference.times 14 (Slice.byte a k)

/-- `SHIFTROWS`: plane `8(r + 4c) + j` takes the old plane `8(r + 4((c + r) mod 4)) + j`; nothing but `P` and `ERR`
changes (R123). -/
def Obligations.ShiftRowsMovesThePlanes : Prop :=
  ∀ (s : State) (p : Batch s.cfg.W), s.cfg.level = .unitLevel → s.pvalid = true → s.p = some p →
    ∃ q : Batch s.cfg.W, exec .shiftrows s = .next ((s.setP q).setErr .success) ∧
      ∀ (r c : Fin 4) (j : Fin 8),
        q[8 * (r.val + 4 * c.val) + j.val] = p[8 * (r.val + 4 * ((c.val + r.val) % 4)) + j.val]

/-- `INVSHIFTROWS`: plane `8(r + 4c) + j` takes the old plane `8(r + 4((c - r) mod 4)) + j`; nothing but `P` and `ERR`
changes (R124). -/
def Obligations.InvShiftRowsMovesThePlanes : Prop :=
  ∀ (s : State) (p : Batch s.cfg.W), s.cfg.level = .unitLevel → s.pvalid = true → s.p = some p →
    ∃ q : Batch s.cfg.W, exec .invshiftrows s = .next ((s.setP q).setErr .success) ∧
      ∀ (r c : Fin 4) (j : Fin 8),
        q[8 * (r.val + 4 * c.val) + j.val] = p[8 * (r.val + 4 * ((c.val + 4 - r.val) % 4)) + j.val]

/-- `MIXCOLUMNS`: per lane and column, the four combinations of R125 with coefficients 2, 3, 1, 1; nothing but `P` and
`ERR` changes. -/
def Obligations.MixColumnsCombinesEveryColumn : Prop :=
  ∀ (s : State) (p : Batch s.cfg.W), s.cfg.level = .unitLevel → s.pvalid = true → s.p = some p →
    ∃ q : Batch s.cfg.W, exec .mixcolumns s = .next ((s.setP q).setErr .success) ∧
      ∀ (c : Fin 4) (k : Nat), k < s.cfg.W →
        let a := fun r => Batch.byte p (position r c.val) k
        let out := fun r => Batch.byte q (position r c.val) k
        out 0 = Reference.times 2 (a 0) ^^^ Reference.times 3 (a 1) ^^^ a 2 ^^^ a 3 ∧
        out 1 = a 0 ^^^ Reference.times 2 (a 1) ^^^ Reference.times 3 (a 2) ^^^ a 3 ∧
        out 2 = a 0 ^^^ a 1 ^^^ Reference.times 2 (a 2) ^^^ Reference.times 3 (a 3) ∧
        out 3 = Reference.times 3 (a 0) ^^^ a 1 ^^^ a 2 ^^^ Reference.times 2 (a 3)

/-- `INVMIXCOLUMNS`: per lane and column, the four combinations of R126 with coefficients 14, 11, 13, 9; nothing but `P`
and `ERR` changes. -/
def Obligations.InvMixColumnsCombinesEveryColumn : Prop :=
  ∀ (s : State) (p : Batch s.cfg.W), s.cfg.level = .unitLevel → s.pvalid = true → s.p = some p →
    ∃ q : Batch s.cfg.W, exec .invmixcolumns s = .next ((s.setP q).setErr .success) ∧
      ∀ (c : Fin 4) (k : Nat), k < s.cfg.W →
        let a := fun r => Batch.byte p (position r c.val) k
        let out := fun r => Batch.byte q (position r c.val) k
        out 0 = Reference.times 14 (a 0) ^^^ Reference.times 11 (a 1) ^^^ Reference.times 13 (a 2) ^^^
          Reference.times 9 (a 3) ∧
        out 1 = Reference.times 9 (a 0) ^^^ Reference.times 14 (a 1) ^^^ Reference.times 11 (a 2) ^^^
          Reference.times 13 (a 3) ∧
        out 2 = Reference.times 13 (a 0) ^^^ Reference.times 9 (a 1) ^^^ Reference.times 14 (a 2) ^^^
          Reference.times 11 (a 3) ∧
        out 3 = Reference.times 11 (a 0) ^^^ Reference.times 13 (a 1) ^^^ Reference.times 9 (a 2) ^^^
          Reference.times 14 (a 3)

/-- `ADDROUNDKEY rk` with `rk ≤ NR`: all 128 planes are XORed with those of `RK[rk]`; nothing but `P` and `ERR` changes
(R127). -/
def Obligations.AddRoundKeyXorsEveryPlane : Prop :=
  ∀ (s : State) (p : Batch s.cfg.W) (rk : Fin 15), s.Inv → s.cfg.level = .unitLevel → s.p = some p →
    s.kvalid = true → rk.val ≤ s.nr.toNat →
    ∃ key q : Batch s.cfg.W, s.rk[rk] = some key ∧
      exec (.addroundkey rk.val) s = .next ((s.setP q).setErr .success) ∧ ∀ i : Fin 128, q[i] = p[i] ^^^ key[i]

/-- R128: the pairs of inverse round operations restore `P`, all lanes, every `P`. -/
def Obligations.InverseRoundOperationsRestoreP : Prop :=
  ∀ s : State, s.Inv → s.cfg.level = .unitLevel → s.pvalid = true →
    execAll [.shiftrows, .invshiftrows] s = .next (s.setErr .success) ∧
    execAll [.invshiftrows, .shiftrows] s = .next (s.setErr .success) ∧
    execAll [.mixcolumns, .invmixcolumns] s = .next (s.setErr .success) ∧
    execAll [.invmixcolumns, .mixcolumns] s = .next (s.setErr .success) ∧
    ∀ rk, s.kvalid = true → rk ≤ s.nr.toNat →
      execAll [.addroundkey rk, .addroundkey rk] s = .next (s.setErr .success)

/-- R129: `SHIFTROWS` and `SUBBYTES` commute, and so do `INVSHIFTROWS` and `INVSUBBYTES`. -/
def Obligations.ShiftRowsAndSubBytesCommute : Prop :=
  ∀ s : State,
    execAll [.shiftrows, .subbytes] s = execAll [.subbytes, .shiftrows] s ∧
    execAll [.invshiftrows, .invsubbytes] s = execAll [.invsubbytes, .invshiftrows] s

/-- Lane `k` of `P` after one of the seven transforming operations is a function of lane `k` before and of the round key
alone: the same for every lane of every core of any width (R109, R130). -/
def Obligations.LanesAreIndependent : Prop :=
  ∀ (i : Instr) (s s' : State) (p : Batch s.cfg.W) (p' : Batch s'.cfg.W) (k k' : Nat),
    Instr.readsBatch i = true → i ≠ .decode → s.Inv → s'.Inv →
    s.cfg.level = .unitLevel → s'.cfg.level = .unitLevel → s.p = some p → s'.p = some p' →
    (∀ rk, i = .addroundkey rk → s.kvalid = true ∧ s'.kvalid = true ∧ rk ≤ s.nr.toNat ∧ rk ≤ s'.nr.toNat ∧
      s.roundKey rk = s'.roundKey rk) →
    k < s.cfg.W → k' < s'.cfg.W → Batch.block p k = Batch.block p' k' →
    ∃ t t' q q', exec i s = .next t ∧ exec i s' = .next t' ∧ t.p = some q ∧ t'.p = some q' ∧
      Batch.block q k = Batch.block q' k'

/-! ## The cipher -/

/-- The expansion lists entry by entry, for every round count: `4*NR + 2` entries (R160, R162, R163), and the round
state each entry belongs to (R161). -/
def Obligations.ExpansionListsAreTheSpecs : Prop :=
  ∀ nr : Nat, 1 ≤ nr →
    (encryptList nr).length = 4 * nr + 2 ∧ (decryptList nr).length = 4 * nr + 2 ∧
    (encryptList nr)[0]? = some .encode ∧ (encryptList nr)[1]? = some (.addRoundKey 0) ∧
    (∀ r, 1 ≤ r → r < nr →
      (encryptList nr)[4 * r - 2]? = some .subBytes ∧ (encryptList nr)[4 * r - 1]? = some .shiftRows ∧
      (encryptList nr)[4 * r]? = some .mixColumns ∧ (encryptList nr)[4 * r + 1]? = some (.addRoundKey r)) ∧
    (encryptList nr)[4 * nr - 2]? = some .subBytes ∧ (encryptList nr)[4 * nr - 1]? = some .shiftRows ∧
    (encryptList nr)[4 * nr]? = some (.addRoundKey nr) ∧ (encryptList nr)[4 * nr + 1]? = some .decode ∧
    (decryptList nr)[0]? = some .encode ∧ (decryptList nr)[1]? = some (.addRoundKey nr) ∧
    (∀ m, 1 ≤ m → m < nr →
      (decryptList nr)[4 * m - 2]? = some .invShiftRows ∧ (decryptList nr)[4 * m - 1]? = some .invSubBytes ∧
      (decryptList nr)[4 * m]? = some (.addRoundKey (nr - m)) ∧
      (decryptList nr)[4 * m + 1]? = some .invMixColumns) ∧
    (decryptList nr)[4 * nr - 2]? = some .invShiftRows ∧ (decryptList nr)[4 * nr - 1]? = some .invSubBytes ∧
    (decryptList nr)[4 * nr]? = some (.addRoundKey 0) ∧ (decryptList nr)[4 * nr + 1]? = some .decode ∧
    roundState 1 = 0 ∧
    (∀ r seq, 1 ≤ r → r < nr → 4 * r - 2 ≤ seq → seq ≤ 4 * r + 1 → roundState seq = r) ∧
    ∀ seq, 4 * nr - 2 ≤ seq → seq ≤ 4 * nr → roundState seq = nr

/-- R164: the state after an accepted `ENCRYPT` or `DECRYPT` is the state reached by issuing the entries of its list one
by one as unit commands. -/
def Obligations.CommandEqualsItsUnitOperations : Prop :=
  ∀ s : State, s.Inv → s.cfg.level = .unitLevel → s.kvalid = true → s.LegalCount →
    (∃ t, exec .encrypt s = .next t ∧ execAll ((encryptList s.nr.toNat).map UnitOp.toInstr) s = .next t) ∧
    (∃ t, exec .decrypt s = .next t ∧ execAll ((decryptList s.nr.toNat).map UnitOp.toInstr) s = .next t)

/-- `ENCRYPT` computes AES: each block of `DOUT` below `COUNT` is the byte-level cipher of the same block of `DIN` under
the round keys in `RK`, at either level and at every width; the lanes of `P` from `COUNT` on hold the cipher of the
all-zero block; every other byte of `DOUT` and every other register stays (R161, R162). -/
def Obligations.EncryptComputesTheCipher : Prop :=
  ∀ s : State, s.Inv → s.kvalid = true → s.LegalCount →
    ∃ (p : Batch s.cfg.W) (m : Memory),
      exec .encrypt s = .next ((((s.setP p).setPvalid true).setDout m).setErr .success) ∧
      (∀ k, k < s.count.toNat →
        Memory.block m k = Reference.cipher s.nr.toNat s.roundKey (Memory.block s.din k)) ∧
      (∀ k, k < s.cfg.W → Batch.block p k = Reference.cipher s.nr.toNat s.roundKey
        (if k < s.count.toNat then Memory.block s.din k else Vector.replicate 16 0)) ∧
      ∀ a, 16 * s.count.toNat ≤ a → Memory.read m a = Memory.read s.dout a

/-- `DECRYPT` computes the inverse cipher, in the order of R163; frame as for `ENCRYPT`. -/
def Obligations.DecryptComputesTheInverseCipher : Prop :=
  ∀ s : State, s.Inv → s.kvalid = true → s.LegalCount →
    ∃ (p : Batch s.cfg.W) (m : Memory),
      exec .decrypt s = .next ((((s.setP p).setPvalid true).setDout m).setErr .success) ∧
      (∀ k, k < s.count.toNat →
        Memory.block m k = Reference.invCipher s.nr.toNat s.roundKey (Memory.block s.din k)) ∧
      (∀ k, k < s.cfg.W → Batch.block p k = Reference.invCipher s.nr.toNat s.roundKey
        (if k < s.count.toNat then Memory.block s.din k else Vector.replicate 16 0)) ∧
      ∀ a, 16 * s.count.toNat ≤ a → Memory.read m a = Memory.read s.dout a

/-- R165: with a key schedule, `ENCRYPT`, then the host copying `DOUT` to `DIN`, then `DECRYPT` leaves the original
blocks in `DOUT`; and the same with the two commands exchanged. -/
def Obligations.DecryptUndoesEncrypt : Prop :=
  ∀ s : State, s.Inv → s.kvalid = true → s.LegalCount →
    (∃ t u, exec .encrypt s = .next t ∧ exec .decrypt (t.copyOut s.count.toNat) = .next u ∧
      ∀ a, a < 16 * s.count.toNat → Memory.read u.dout a = Memory.read s.din a) ∧
    (∃ t u, exec .decrypt s = .next t ∧ exec .encrypt (t.copyOut s.count.toNat) = .next u ∧
      ∀ a, a < 16 * s.count.toNat → Memory.read u.dout a = Memory.read s.din a)

/-- R166: block `k` of a batch comes out as it would alone, from block 0 of a batch of one, on a core of the same or any
other width with the same round keys; for `ENCRYPT` and for `DECRYPT`. -/
def Obligations.BatchBlocksAreIndependent : Prop :=
  ∀ (s s' : State) (k : Nat), s.Inv → s'.Inv → s.kvalid = true → s'.kvalid = true → s.LegalCount →
    s'.count = 1 → k < s.count.toNat → s'.nr = s.nr → (∀ rk, rk ≤ s.nr.toNat → s'.roundKey rk = s.roundKey rk) →
    Memory.block s'.din 0 = Memory.block s.din k →
    (∃ t t', exec .encrypt s = .next t ∧ exec .encrypt s' = .next t' ∧
      Memory.block t.dout k = Memory.block t'.dout 0) ∧
    (∃ t t', exec .decrypt s = .next t ∧ exec .decrypt s' = .next t' ∧
      Memory.block t.dout k = Memory.block t'.dout 0)

/-- The result of `ENCRYPT` and `DECRYPT` depends on `RK`, `NR`, `COUNT` and `DIN` and on nothing else: what `P`, `DOUT`,
`ERR`, `KEYBUF` and `KLEN` held before has no effect on it (R37, R148). -/
def Obligations.PublicResultsReadOnlyTheirOperands : Prop :=
  ∀ (i : Instr) (s : State) (p : Option (Batch s.cfg.W)) (pv : Bool) (e : Err) (klen : Byte) (keybuf dout : Memory),
    let s' : State := { s with p := p, pvalid := pv, err := e, klen := klen, keybuf := keybuf, dout := dout }
    (i = .encrypt ∨ i = .decrypt) → s.Inv → s'.Inv → s.kvalid = true → s.LegalCount →
    ∃ t t' q q', exec i s = .next t ∧ exec i s' = .next t' ∧
      (∀ a, a < 16 * s.count.toNat → Memory.read t.dout a = Memory.read t'.dout a) ∧
      t.p = some q ∧ t'.p = some q' ∧ ∀ k, k < s.cfg.W → Batch.block q k = Batch.block q' k

/-- Whether an operation is refused, and the `STATUS` and `SEQ` it leaves, are functions of public values only (`W`, the
level, `KVALID`, `PVALID`, `NR`, `KLEN`, `COUNT`): no bit of a key, a block or a plane has a part in them
(R68, R145, R167). -/
def Obligations.OutcomesDoNotDependOnData : Prop :=
  ∀ (i : Instr) (s s' : State), s.Inv → s'.Inv → s'.cfg = s.cfg → s'.kvalid = s.kvalid → s'.pvalid = s.pvalid →
    s'.nr = s.nr → s'.klen = s.klen → s'.count = s.count →
    (∃ r, exec i s = .refused r ∧ exec i s' = .refused r) ∨
    (∃ t t', exec i s = .next t ∧ exec i s' = .next t' ∧ t'.status = t.status ∧ t'.seq = t.seq)

/-! ## What a command executes -/

/-- The circuits whose gates are counted are the ones `exec` runs: they compute `SBOX8`, `IA` and `XT`, evaluated gate by
gate they give the batch every unit operation leaves and the schedule `EXPAND` leaves, and the codec's moves are the bits
it carries over. Their gates, moves and evaluations of `S`, counted by kind, and those of `ENCRYPT` and `DECRYPT` with
`NR = n + 1` rounds, are those of R218's table: functions of `NR`, `COUNT` and `KLEN` only. -/
def Obligations.PrimitiveCountsAreTheSpecs : Prop :=
  (∀ (w : Nat) (q : Slice w), sboxCircuit.eval q.toList = sbox8 q ∧ invAffineCircuit.eval q.toList = invAffine8 q ∧
    xtCircuit.eval q.toList = xt q) ∧
  (∀ (op : UnitOp) (s : State) (p key : Batch s.cfg.W), s.cfg.level = .unitLevel → s.pvalid = true → s.p = some p →
    op ≠ .encode → op ≠ .decode →
    (∀ rk, op = .addRoundKey rk → s.kvalid = true ∧ rk ≤ s.nr.toNat ∧ s.roundKeyPlanes rk = some key) →
    exec op.toInstr s = .next ((s.setP (op.byGates key p)).setErr .success)) ∧
  (∀ s : State, s.Inv → s.cfg.level = .unitLevel → s.LegalCount →
    (∃ q : Batch s.cfg.W, exec .encode s = .next (((s.setP q).setPvalid true).setErr .success) ∧
      ∀ (k : Nat) (b : Fin 16) (j : Fin 8), k < s.cfg.W → (q[8 * b.val + j.val]).getLsbD k =
        (decide ((k, b, j) ∈ codecMoves s.count.toNat) && (Memory.read s.din (16 * k + b.val)).getLsbD j.val)) ∧
    ∀ p : Batch s.cfg.W, s.p = some p → ∃ m : Memory, exec .decode s = .next ((s.setDout m).setErr .success) ∧
      (∀ (k : Nat) (b : Fin 16) (j : Fin 8), (k, b, j) ∈ codecMoves s.count.toNat →
        (Memory.read m (16 * k + b.val)).getLsbD j.val = (p[8 * b.val + j.val]).getLsbD k) ∧
      ∀ a, (∀ (k : Nat) (b : Fin 16) (j : Fin 8), (k, b, j) ∈ codecMoves s.count.toNat → a ≠ 16 * k + b.val) →
        Memory.read m a = Memory.read s.dout a) ∧
  (∀ s : State, s.LegalKeyLength →
    exec .expand s = .next ((s.setSchedule (BitVec.ofNat 4 (roundCount s.klen))
      (roundKeys s.cfg.W (expandByGates s.keybuf s.klen).1 (roundCount s.klen))).setErr .success)) ∧
  (∀ p : Primitive, (UnitOp.trace 1 .subBytes).count p =
    match p with | .and => 512 | .xor => 1264 | .xnor => 64 | .not => 0 | .move => 0) ∧
  (∀ p : Primitive, (UnitOp.trace 1 .invSubBytes).count p =
    match p with | .and => 512 | .xor => 1776 | .xnor => 64 | .not => 64 | .move => 0) ∧
  (∀ count : Nat, (codecMoves count).Nodup ∧
    UnitOp.trace count .subBytes = UnitOp.trace 1 .subBytes ∧
    UnitOp.trace count .invSubBytes = UnitOp.trace 1 .invSubBytes ∧
    UnitOp.trace count .mixColumns = List.replicate 560 .xor ∧
    UnitOp.trace count .invMixColumns = List.replicate 1424 .xor ∧
    (∀ rk, UnitOp.trace count (.addRoundKey rk) = List.replicate 128 .xor) ∧
    UnitOp.trace count .shiftRows = [] ∧ UnitOp.trace count .invShiftRows = [] ∧
    UnitOp.trace count .encode = List.replicate (128 * count) .move ∧
    UnitOp.trace count .decode = List.replicate (128 * count) .move) ∧
  (∀ n count : Nat,
    (encryptTrace (n + 1) count).count .move = 256 * count ∧
    ((encryptTrace (n + 1) count).filter (· ≠ .move)).length = (n + 1) * 1840 + n * 560 + (n + 2) * 128 ∧
    (decryptTrace (n + 1) count).count .move = 256 * count ∧
    ((decryptTrace (n + 1) count).filter (· ≠ .move)).length = (n + 1) * 2416 + n * 1424 + (n + 2) * 128) ∧
  ∀ keybuf : Memory, (expandByGates keybuf 16).2 = 40 ∧ (expandByGates keybuf 24).2 = 32 ∧
    (expandByGates keybuf 32).2 = 52
end

