-- ==== Sys2Proof/Laws/Memory.lean ====
section
/-! SUPPORT. The laws of buffers: a read after a write, the canonical form, and equality by reading. -/

namespace Sys2Proof.Machine

@[simp] theorem Memory.read_nil (a : Nat) : Memory.read [] a = Memory.unlisted := rfl

/-- Below every listed offset a buffer reads as unlisted. -/
theorem Memory.read_below {m : Memory} {lo a : Nat} (h : Memory.wfFrom lo m = true) (ha : a < lo) :
    Memory.read m a = Memory.unlisted := by
  induction m generalizing lo with
  | nil => rfl
  | cons cell rest ih =>
    obtain ⟨x, v⟩ := cell
    simp only [Memory.wfFrom, Bool.and_eq_true, decide_eq_true_eq] at h
    have hne : x ≠ a := by omega
    simp only [Memory.read, if_neg hne]
    exact ih h.2.2 (by omega)

theorem Memory.wfFrom_mono {m : Memory} {lo lo' : Nat} (h : Memory.wfFrom lo m = true) (hl : lo' ≤ lo) :
    Memory.wfFrom lo' m = true := by
  cases m with
  | nil => rfl
  | cons cell rest =>
    simp only [Memory.wfFrom, Bool.and_eq_true, decide_eq_true_eq] at h ⊢
    exact ⟨by omega, h.2⟩

theorem Memory.wfFrom_cons {m : Memory} {off : Nat} {v : Byte} (h : Memory.wfFrom (off + 1) m = true) :
    Memory.wfFrom off (Memory.cons off v m) = true := by
  unfold Memory.cons
  split
  · exact Memory.wfFrom_mono h (by omega)
  · simp_all [Memory.wfFrom]

/-- Putting a cell in front: that offset reads as the byte put there, the others as before. -/
theorem Memory.read_cons {m : Memory} {off : Nat} (v : Byte) (a : Nat) (h : Memory.wfFrom (off + 1) m = true) :
    Memory.read (Memory.cons off v m) a = if a = off then v else Memory.read m a := by
  unfold Memory.cons
  split
  · rename_i hv
    split
    · rename_i ha
      rw [hv, Memory.read_below h (by omega)]
    · rfl
  · simp only [Memory.read, eq_comm (a := off)]

theorem Memory.wfFrom_write {m : Memory} {lo off : Nat} (v : Byte) (h : Memory.wfFrom lo m = true) (hl : lo ≤ off) :
    Memory.wfFrom lo (Memory.write m off v) = true := by
  induction m generalizing lo with
  | nil => exact Memory.wfFrom_mono (Memory.wfFrom_cons (by rfl)) hl
  | cons cell rest ih =>
    obtain ⟨x, y⟩ := cell
    have h' := h
    simp only [Memory.wfFrom, Bool.and_eq_true, decide_eq_true_eq] at h
    simp only [Memory.write]
    split
    · exact Memory.wfFrom_mono (Memory.wfFrom_cons (by simp only [Memory.wfFrom, Bool.and_eq_true, decide_eq_true_eq]; exact ⟨by omega, h.2⟩)) hl
    · split
      · rename_i hlt heq
        subst heq
        exact Memory.wfFrom_mono (Memory.wfFrom_cons h.2.2) hl
      · simp only [Memory.wfFrom, Bool.and_eq_true, decide_eq_true_eq]
        exact ⟨h.1, h.2.1, ih h.2.2 (by omega)⟩

/-- A write keeps the canonical form. -/
theorem Memory.wf_write {m : Memory} (off : Nat) (v : Byte) (h : Memory.wf m = true) :
    Memory.wf (Memory.write m off v) = true := Memory.wfFrom_write v h (Nat.zero_le _)

theorem Memory.read_write_from {m : Memory} {lo : Nat} (off : Nat) (v : Byte) (a : Nat)
    (h : Memory.wfFrom lo m = true) :
    Memory.read (Memory.write m off v) a = if a = off then v else Memory.read m a := by
  induction m generalizing lo with
  | nil => exact Memory.read_cons v a rfl
  | cons cell rest ih =>
    obtain ⟨x, y⟩ := cell
    simp only [Memory.wfFrom, Bool.and_eq_true, decide_eq_true_eq] at h
    simp only [Memory.write]
    split
    · exact Memory.read_cons v a (by simp only [Memory.wfFrom, Bool.and_eq_true, decide_eq_true_eq]; exact ⟨by omega, h.2⟩)
    · split
      · rename_i hlt heq
        subst heq
        rw [Memory.read_cons v a h.2.2]
        by_cases ha : a = off
        · simp [ha]
        · simp [ha, Memory.read, eq_comm (a := off)]
      · rename_i hlt hne
        simp only [Memory.read]
        by_cases hx : x = a
        · simp [hx]
          intro h'; omega
        · simp [hx, ih h.2.2]

/-- A read after a write to a canonical buffer: the byte written at that offset, the old byte at any other. -/
theorem Memory.read_write {m : Memory} (off : Nat) (v : Byte) (a : Nat) (h : Memory.wf m = true) :
    Memory.read (Memory.write m off v) a = if a = off then v else Memory.read m a :=
  Memory.read_write_from off v a h

theorem Memory.within_cell (n a : Nat) (x : Byte) (m : Memory) :
    Memory.within n ((a, x) :: m) = (decide (a < n) && Memory.within n m) := rfl

theorem Memory.within_cons {n off : Nat} {v : Byte} {m : Memory} (h : Memory.within n m = true) (ho : off < n) :
    Memory.within n (Memory.cons off v m) = true := by
  unfold Memory.cons
  split
  · exact h
  · simpa [Memory.within_cell, ho] using h

/-- A write at an offset the buffer has lists no offset it does not have. -/
theorem Memory.within_write {n off : Nat} {m : Memory} (v : Byte) (h : Memory.within n m = true) (ho : off < n) :
    Memory.within n (Memory.write m off v) = true := by
  induction m with
  | nil => exact Memory.within_cons (by rfl) ho
  | cons cell rest ih =>
    obtain ⟨x, y⟩ := cell
    have hr : x < n ∧ Memory.within n rest = true := by simpa [Memory.within_cell] using h
    simp only [Memory.write]
    split
    · exact Memory.within_cons h ho
    · split
      · exact Memory.within_cons hr.2 ho
      · simp [Memory.within_cell, hr.1, ih hr.2]

/-- Writing a string keeps the canonical form. -/
theorem Memory.wf_writeBytes {m : Memory} (off : Nat) (v : List Byte) (h : Memory.wf m = true) :
    Memory.wf (Memory.writeBytes m off v) = true := by
  induction v generalizing m off with
  | nil => exact h
  | cons x rest ih => exact ih (off + 1) (Memory.wf_write off x h)

/-- Writing a string inside a buffer lists no offset it does not have. -/
theorem Memory.within_writeBytes {n : Nat} {m : Memory} (off : Nat) (v : List Byte) (h : Memory.within n m = true)
    (hv : off + v.length ≤ n) : Memory.within n (Memory.writeBytes m off v) = true := by
  induction v generalizing m off with
  | nil => exact h
  | cons x rest ih =>
    simp only [List.length_cons] at hv
    exact ih (off + 1) (Memory.within_write x h (by omega)) (by omega)

/-- Reading after a string is written: the string's bytes from its offset on, the old bytes elsewhere. -/
theorem Memory.read_writeBytes {m : Memory} (off : Nat) (v : List Byte) (a : Nat) (h : Memory.wf m = true) :
    Memory.read (Memory.writeBytes m off v) a =
      if off ≤ a ∧ a < off + v.length then v.getD (a - off) 0 else Memory.read m a := by
  induction v generalizing m off with
  | nil =>
    simp only [Memory.writeBytes, List.length_nil, Nat.add_zero]
    rw [if_neg (by omega)]
  | cons x rest ih =>
    simp only [Memory.writeBytes, List.length_cons]
    rw [ih (off + 1) (Memory.wf_write off x h), Memory.read_write off x a h]
    by_cases ha : a = off
    · subst ha
      simp
    · by_cases hin : off + 1 ≤ a ∧ a < off + 1 + rest.length
      · rw [if_pos hin, if_pos (by omega)]
        obtain ⟨d, rfl⟩ : ∃ d, a = off + 1 + d := ⟨a - (off + 1), by omega⟩
        rw [show off + 1 + d - (off + 1) = d by omega, show off + 1 + d - off = d + 1 by omega]
        simp
      · rw [if_neg hin, if_neg ha, if_neg (by omega)]

/-- Canonical buffers that read alike are equal data. -/
theorem Memory.ext_from {m m' : Memory} {lo : Nat} (h : Memory.wfFrom lo m = true) (h' : Memory.wfFrom lo m' = true)
    (heq : ∀ a, Memory.read m a = Memory.read m' a) : m = m' := by
  induction m generalizing m' lo with
  | nil =>
    cases m' with
    | nil => rfl
    | cons cell rest =>
      simp only [Memory.wfFrom, Bool.and_eq_true, decide_eq_true_eq] at h'
      have := heq cell.1
      simp [Memory.read] at this
      exact absurd this.symm h'.2.1
  | cons cell rest ih =>
    obtain ⟨x, v⟩ := cell
    simp only [Memory.wfFrom, Bool.and_eq_true, decide_eq_true_eq] at h
    cases m' with
    | nil =>
      have := heq x
      simp [Memory.read] at this
      exact absurd this h.2.1
    | cons cell' rest' =>
      obtain ⟨x', v'⟩ := cell'
      simp only [Memory.wfFrom, Bool.and_eq_true, decide_eq_true_eq] at h'
      have hx : x = x' := by
        rcases Nat.lt_trichotomy x x' with hlt | heq' | hgt
        · have := heq x
          simp only [Memory.read, if_true, if_neg (show x' ≠ x by omega)] at this
          rw [Memory.read_below h'.2.2 (by omega)] at this
          exact absurd this h.2.1
        · exact heq'
        · have := heq x'
          simp only [Memory.read, if_true, if_neg (show x ≠ x' by omega)] at this
          rw [Memory.read_below h.2.2 (by omega)] at this
          exact absurd this.symm h'.2.1
      subst hx
      have hv : v = v' := by simpa [Memory.read] using heq x
      subst hv
      refine congrArg _ (ih h.2.2 h'.2.2 fun a => ?_)
      by_cases hxa : x = a
      · subst hxa
        rw [Memory.read_below h.2.2 (by omega), Memory.read_below h'.2.2 (by omega)]
      · simpa [Memory.read, hxa] using heq a

/-- Canonical buffers that read alike are equal data. -/
theorem Memory.ext {m m' : Memory} (h : Memory.wf m = true) (h' : Memory.wf m' = true)
    (heq : ∀ a, Memory.read m a = Memory.read m' a) : m = m' := Memory.ext_from h h' heq

/-- The contents after a reset event are in canonical form. -/
theorem Memory.wf_afterReset (before : State) (space : Space) :
    Memory.wf (Memory.afterReset before space) = true := Memory.wf_writeBytes 0 _ rfl

/-- The contents after a reset event lie inside the buffer. -/
theorem Memory.within_afterReset (before : State) (space : Space) :
    Memory.within (space.size before.cfg) (Memory.afterReset before space) = true :=
  Memory.within_writeBytes 0 _ rfl (by simp)

/-- The bytes read are as many as were asked for. -/
@[simp] theorem Memory.length_readBytes (m : Memory) (off n : Nat) : (Memory.readBytes m off n).length = n := by
  simp [Memory.readBytes]

/-- The `i`-th byte read is the one at offset `off + i`. -/
theorem Memory.getElem_readBytes (m : Memory) (off n i : Nat) (h : i < n) :
    (Memory.readBytes m off n)[i]'(by simpa using h) = Memory.read m (off + i) := by
  simp [Memory.readBytes]

end Sys2Proof.Machine
end

