-- ==== Sys2Proof/Laws/State.lean ====
section
/-! SUPPORT. What each register update does to each register: one lemma per update and field, true by definition. -/

namespace Sys2Proof.Machine

variable (s : State)

@[simp] theorem State.setP_cfg (b : Batch s.cfg.W) : (s.setP b).cfg = s.cfg := rfl
@[simp] theorem State.setP_p (b : Batch s.cfg.W) : (s.setP b).p = some b := rfl
@[simp] theorem State.setP_rk (b : Batch s.cfg.W) : (s.setP b).rk = s.rk := rfl
@[simp] theorem State.setP_nr (b : Batch s.cfg.W) : (s.setP b).nr = s.nr := rfl
@[simp] theorem State.setP_kvalid (b : Batch s.cfg.W) : (s.setP b).kvalid = s.kvalid := rfl
@[simp] theorem State.setP_pvalid (b : Batch s.cfg.W) : (s.setP b).pvalid = s.pvalid := rfl
@[simp] theorem State.setP_err (b : Batch s.cfg.W) : (s.setP b).err = s.err := rfl
@[simp] theorem State.setP_seq (b : Batch s.cfg.W) : (s.setP b).seq = s.seq := rfl
@[simp] theorem State.setP_klen (b : Batch s.cfg.W) : (s.setP b).klen = s.klen := rfl
@[simp] theorem State.setP_count (b : Batch s.cfg.W) : (s.setP b).count = s.count := rfl
@[simp] theorem State.setP_keybuf (b : Batch s.cfg.W) : (s.setP b).keybuf = s.keybuf := rfl
@[simp] theorem State.setP_din (b : Batch s.cfg.W) : (s.setP b).din = s.din := rfl
@[simp] theorem State.setP_dout (b : Batch s.cfg.W) : (s.setP b).dout = s.dout := rfl
@[simp] theorem State.setP_host (b : Batch s.cfg.W) : (s.setP b).host = s.host := rfl
@[simp] theorem State.setP_resets (b : Batch s.cfg.W) : (s.setP b).resets = s.resets := rfl

@[simp] theorem State.setPvalid_cfg (v : Bool) : (s.setPvalid v).cfg = s.cfg := rfl
@[simp] theorem State.setPvalid_p (v : Bool) : (s.setPvalid v).p = s.p := rfl
@[simp] theorem State.setPvalid_rk (v : Bool) : (s.setPvalid v).rk = s.rk := rfl
@[simp] theorem State.setPvalid_nr (v : Bool) : (s.setPvalid v).nr = s.nr := rfl
@[simp] theorem State.setPvalid_kvalid (v : Bool) : (s.setPvalid v).kvalid = s.kvalid := rfl
@[simp] theorem State.setPvalid_pvalid (v : Bool) : (s.setPvalid v).pvalid = v := rfl
@[simp] theorem State.setPvalid_err (v : Bool) : (s.setPvalid v).err = s.err := rfl
@[simp] theorem State.setPvalid_seq (v : Bool) : (s.setPvalid v).seq = s.seq := rfl
@[simp] theorem State.setPvalid_klen (v : Bool) : (s.setPvalid v).klen = s.klen := rfl
@[simp] theorem State.setPvalid_count (v : Bool) : (s.setPvalid v).count = s.count := rfl
@[simp] theorem State.setPvalid_keybuf (v : Bool) : (s.setPvalid v).keybuf = s.keybuf := rfl
@[simp] theorem State.setPvalid_din (v : Bool) : (s.setPvalid v).din = s.din := rfl
@[simp] theorem State.setPvalid_dout (v : Bool) : (s.setPvalid v).dout = s.dout := rfl
@[simp] theorem State.setPvalid_host (v : Bool) : (s.setPvalid v).host = s.host := rfl
@[simp] theorem State.setPvalid_resets (v : Bool) : (s.setPvalid v).resets = s.resets := rfl

@[simp] theorem State.setSchedule_cfg (n : BitVec 4) (k : Vector (Option (Batch s.cfg.W)) 15) : (s.setSchedule n k).cfg = s.cfg := rfl
@[simp] theorem State.setSchedule_p (n : BitVec 4) (k : Vector (Option (Batch s.cfg.W)) 15) : (s.setSchedule n k).p = s.p := rfl
@[simp] theorem State.setSchedule_rk (n : BitVec 4) (k : Vector (Option (Batch s.cfg.W)) 15) : (s.setSchedule n k).rk = k := rfl
@[simp] theorem State.setSchedule_nr (n : BitVec 4) (k : Vector (Option (Batch s.cfg.W)) 15) : (s.setSchedule n k).nr = n := rfl
@[simp] theorem State.setSchedule_kvalid (n : BitVec 4) (k : Vector (Option (Batch s.cfg.W)) 15) : (s.setSchedule n k).kvalid = true := rfl
@[simp] theorem State.setSchedule_pvalid (n : BitVec 4) (k : Vector (Option (Batch s.cfg.W)) 15) : (s.setSchedule n k).pvalid = s.pvalid := rfl
@[simp] theorem State.setSchedule_err (n : BitVec 4) (k : Vector (Option (Batch s.cfg.W)) 15) : (s.setSchedule n k).err = s.err := rfl
@[simp] theorem State.setSchedule_seq (n : BitVec 4) (k : Vector (Option (Batch s.cfg.W)) 15) : (s.setSchedule n k).seq = s.seq := rfl
@[simp] theorem State.setSchedule_klen (n : BitVec 4) (k : Vector (Option (Batch s.cfg.W)) 15) : (s.setSchedule n k).klen = s.klen := rfl
@[simp] theorem State.setSchedule_count (n : BitVec 4) (k : Vector (Option (Batch s.cfg.W)) 15) : (s.setSchedule n k).count = s.count := rfl
@[simp] theorem State.setSchedule_keybuf (n : BitVec 4) (k : Vector (Option (Batch s.cfg.W)) 15) : (s.setSchedule n k).keybuf = s.keybuf := rfl
@[simp] theorem State.setSchedule_din (n : BitVec 4) (k : Vector (Option (Batch s.cfg.W)) 15) : (s.setSchedule n k).din = s.din := rfl
@[simp] theorem State.setSchedule_dout (n : BitVec 4) (k : Vector (Option (Batch s.cfg.W)) 15) : (s.setSchedule n k).dout = s.dout := rfl
@[simp] theorem State.setSchedule_host (n : BitVec 4) (k : Vector (Option (Batch s.cfg.W)) 15) : (s.setSchedule n k).host = s.host := rfl
@[simp] theorem State.setSchedule_resets (n : BitVec 4) (k : Vector (Option (Batch s.cfg.W)) 15) : (s.setSchedule n k).resets = s.resets := rfl

@[simp] theorem State.setErr_cfg (e : Err) : (s.setErr e).cfg = s.cfg := rfl
@[simp] theorem State.setErr_p (e : Err) : (s.setErr e).p = s.p := rfl
@[simp] theorem State.setErr_rk (e : Err) : (s.setErr e).rk = s.rk := rfl
@[simp] theorem State.setErr_nr (e : Err) : (s.setErr e).nr = s.nr := rfl
@[simp] theorem State.setErr_kvalid (e : Err) : (s.setErr e).kvalid = s.kvalid := rfl
@[simp] theorem State.setErr_pvalid (e : Err) : (s.setErr e).pvalid = s.pvalid := rfl
@[simp] theorem State.setErr_err (e : Err) : (s.setErr e).err = e := rfl
@[simp] theorem State.setErr_seq (e : Err) : (s.setErr e).seq = s.seq := rfl
@[simp] theorem State.setErr_klen (e : Err) : (s.setErr e).klen = s.klen := rfl
@[simp] theorem State.setErr_count (e : Err) : (s.setErr e).count = s.count := rfl
@[simp] theorem State.setErr_keybuf (e : Err) : (s.setErr e).keybuf = s.keybuf := rfl
@[simp] theorem State.setErr_din (e : Err) : (s.setErr e).din = s.din := rfl
@[simp] theorem State.setErr_dout (e : Err) : (s.setErr e).dout = s.dout := rfl
@[simp] theorem State.setErr_host (e : Err) : (s.setErr e).host = s.host := rfl
@[simp] theorem State.setErr_resets (e : Err) : (s.setErr e).resets = s.resets := rfl

@[simp] theorem State.setSeq_cfg (v : BitVec 6) : (s.setSeq v).cfg = s.cfg := rfl
@[simp] theorem State.setSeq_p (v : BitVec 6) : (s.setSeq v).p = s.p := rfl
@[simp] theorem State.setSeq_rk (v : BitVec 6) : (s.setSeq v).rk = s.rk := rfl
@[simp] theorem State.setSeq_nr (v : BitVec 6) : (s.setSeq v).nr = s.nr := rfl
@[simp] theorem State.setSeq_kvalid (v : BitVec 6) : (s.setSeq v).kvalid = s.kvalid := rfl
@[simp] theorem State.setSeq_pvalid (v : BitVec 6) : (s.setSeq v).pvalid = s.pvalid := rfl
@[simp] theorem State.setSeq_err (v : BitVec 6) : (s.setSeq v).err = s.err := rfl
@[simp] theorem State.setSeq_seq (v : BitVec 6) : (s.setSeq v).seq = v := rfl
@[simp] theorem State.setSeq_klen (v : BitVec 6) : (s.setSeq v).klen = s.klen := rfl
@[simp] theorem State.setSeq_count (v : BitVec 6) : (s.setSeq v).count = s.count := rfl
@[simp] theorem State.setSeq_keybuf (v : BitVec 6) : (s.setSeq v).keybuf = s.keybuf := rfl
@[simp] theorem State.setSeq_din (v : BitVec 6) : (s.setSeq v).din = s.din := rfl
@[simp] theorem State.setSeq_dout (v : BitVec 6) : (s.setSeq v).dout = s.dout := rfl
@[simp] theorem State.setSeq_host (v : BitVec 6) : (s.setSeq v).host = s.host := rfl
@[simp] theorem State.setSeq_resets (v : BitVec 6) : (s.setSeq v).resets = s.resets := rfl

@[simp] theorem State.setKlen_cfg (v : Byte) : (s.setKlen v).cfg = s.cfg := rfl
@[simp] theorem State.setKlen_p (v : Byte) : (s.setKlen v).p = s.p := rfl
@[simp] theorem State.setKlen_rk (v : Byte) : (s.setKlen v).rk = s.rk := rfl
@[simp] theorem State.setKlen_nr (v : Byte) : (s.setKlen v).nr = s.nr := rfl
@[simp] theorem State.setKlen_kvalid (v : Byte) : (s.setKlen v).kvalid = s.kvalid := rfl
@[simp] theorem State.setKlen_pvalid (v : Byte) : (s.setKlen v).pvalid = s.pvalid := rfl
@[simp] theorem State.setKlen_err (v : Byte) : (s.setKlen v).err = s.err := rfl
@[simp] theorem State.setKlen_seq (v : Byte) : (s.setKlen v).seq = s.seq := rfl
@[simp] theorem State.setKlen_klen (v : Byte) : (s.setKlen v).klen = v := rfl
@[simp] theorem State.setKlen_count (v : Byte) : (s.setKlen v).count = s.count := rfl
@[simp] theorem State.setKlen_keybuf (v : Byte) : (s.setKlen v).keybuf = s.keybuf := rfl
@[simp] theorem State.setKlen_din (v : Byte) : (s.setKlen v).din = s.din := rfl
@[simp] theorem State.setKlen_dout (v : Byte) : (s.setKlen v).dout = s.dout := rfl
@[simp] theorem State.setKlen_host (v : Byte) : (s.setKlen v).host = s.host := rfl
@[simp] theorem State.setKlen_resets (v : Byte) : (s.setKlen v).resets = s.resets := rfl

@[simp] theorem State.setCount_cfg (v : Byte) : (s.setCount v).cfg = s.cfg := rfl
@[simp] theorem State.setCount_p (v : Byte) : (s.setCount v).p = s.p := rfl
@[simp] theorem State.setCount_rk (v : Byte) : (s.setCount v).rk = s.rk := rfl
@[simp] theorem State.setCount_nr (v : Byte) : (s.setCount v).nr = s.nr := rfl
@[simp] theorem State.setCount_kvalid (v : Byte) : (s.setCount v).kvalid = s.kvalid := rfl
@[simp] theorem State.setCount_pvalid (v : Byte) : (s.setCount v).pvalid = s.pvalid := rfl
@[simp] theorem State.setCount_err (v : Byte) : (s.setCount v).err = s.err := rfl
@[simp] theorem State.setCount_seq (v : Byte) : (s.setCount v).seq = s.seq := rfl
@[simp] theorem State.setCount_klen (v : Byte) : (s.setCount v).klen = s.klen := rfl
@[simp] theorem State.setCount_count (v : Byte) : (s.setCount v).count = v := rfl
@[simp] theorem State.setCount_keybuf (v : Byte) : (s.setCount v).keybuf = s.keybuf := rfl
@[simp] theorem State.setCount_din (v : Byte) : (s.setCount v).din = s.din := rfl
@[simp] theorem State.setCount_dout (v : Byte) : (s.setCount v).dout = s.dout := rfl
@[simp] theorem State.setCount_host (v : Byte) : (s.setCount v).host = s.host := rfl
@[simp] theorem State.setCount_resets (v : Byte) : (s.setCount v).resets = s.resets := rfl

@[simp] theorem State.setKeybuf_cfg (m : Memory) : (s.setKeybuf m).cfg = s.cfg := rfl
@[simp] theorem State.setKeybuf_p (m : Memory) : (s.setKeybuf m).p = s.p := rfl
@[simp] theorem State.setKeybuf_rk (m : Memory) : (s.setKeybuf m).rk = s.rk := rfl
@[simp] theorem State.setKeybuf_nr (m : Memory) : (s.setKeybuf m).nr = s.nr := rfl
@[simp] theorem State.setKeybuf_kvalid (m : Memory) : (s.setKeybuf m).kvalid = s.kvalid := rfl
@[simp] theorem State.setKeybuf_pvalid (m : Memory) : (s.setKeybuf m).pvalid = s.pvalid := rfl
@[simp] theorem State.setKeybuf_err (m : Memory) : (s.setKeybuf m).err = s.err := rfl
@[simp] theorem State.setKeybuf_seq (m : Memory) : (s.setKeybuf m).seq = s.seq := rfl
@[simp] theorem State.setKeybuf_klen (m : Memory) : (s.setKeybuf m).klen = s.klen := rfl
@[simp] theorem State.setKeybuf_count (m : Memory) : (s.setKeybuf m).count = s.count := rfl
@[simp] theorem State.setKeybuf_keybuf (m : Memory) : (s.setKeybuf m).keybuf = m := rfl
@[simp] theorem State.setKeybuf_din (m : Memory) : (s.setKeybuf m).din = s.din := rfl
@[simp] theorem State.setKeybuf_dout (m : Memory) : (s.setKeybuf m).dout = s.dout := rfl
@[simp] theorem State.setKeybuf_host (m : Memory) : (s.setKeybuf m).host = s.host := rfl
@[simp] theorem State.setKeybuf_resets (m : Memory) : (s.setKeybuf m).resets = s.resets := rfl

@[simp] theorem State.setDin_cfg (m : Memory) : (s.setDin m).cfg = s.cfg := rfl
@[simp] theorem State.setDin_p (m : Memory) : (s.setDin m).p = s.p := rfl
@[simp] theorem State.setDin_rk (m : Memory) : (s.setDin m).rk = s.rk := rfl
@[simp] theorem State.setDin_nr (m : Memory) : (s.setDin m).nr = s.nr := rfl
@[simp] theorem State.setDin_kvalid (m : Memory) : (s.setDin m).kvalid = s.kvalid := rfl
@[simp] theorem State.setDin_pvalid (m : Memory) : (s.setDin m).pvalid = s.pvalid := rfl
@[simp] theorem State.setDin_err (m : Memory) : (s.setDin m).err = s.err := rfl
@[simp] theorem State.setDin_seq (m : Memory) : (s.setDin m).seq = s.seq := rfl
@[simp] theorem State.setDin_klen (m : Memory) : (s.setDin m).klen = s.klen := rfl
@[simp] theorem State.setDin_count (m : Memory) : (s.setDin m).count = s.count := rfl
@[simp] theorem State.setDin_keybuf (m : Memory) : (s.setDin m).keybuf = s.keybuf := rfl
@[simp] theorem State.setDin_din (m : Memory) : (s.setDin m).din = m := rfl
@[simp] theorem State.setDin_dout (m : Memory) : (s.setDin m).dout = s.dout := rfl
@[simp] theorem State.setDin_host (m : Memory) : (s.setDin m).host = s.host := rfl
@[simp] theorem State.setDin_resets (m : Memory) : (s.setDin m).resets = s.resets := rfl

@[simp] theorem State.setDout_cfg (m : Memory) : (s.setDout m).cfg = s.cfg := rfl
@[simp] theorem State.setDout_p (m : Memory) : (s.setDout m).p = s.p := rfl
@[simp] theorem State.setDout_rk (m : Memory) : (s.setDout m).rk = s.rk := rfl
@[simp] theorem State.setDout_nr (m : Memory) : (s.setDout m).nr = s.nr := rfl
@[simp] theorem State.setDout_kvalid (m : Memory) : (s.setDout m).kvalid = s.kvalid := rfl
@[simp] theorem State.setDout_pvalid (m : Memory) : (s.setDout m).pvalid = s.pvalid := rfl
@[simp] theorem State.setDout_err (m : Memory) : (s.setDout m).err = s.err := rfl
@[simp] theorem State.setDout_seq (m : Memory) : (s.setDout m).seq = s.seq := rfl
@[simp] theorem State.setDout_klen (m : Memory) : (s.setDout m).klen = s.klen := rfl
@[simp] theorem State.setDout_count (m : Memory) : (s.setDout m).count = s.count := rfl
@[simp] theorem State.setDout_keybuf (m : Memory) : (s.setDout m).keybuf = s.keybuf := rfl
@[simp] theorem State.setDout_din (m : Memory) : (s.setDout m).din = s.din := rfl
@[simp] theorem State.setDout_dout (m : Memory) : (s.setDout m).dout = m := rfl
@[simp] theorem State.setDout_host (m : Memory) : (s.setDout m).host = s.host := rfl
@[simp] theorem State.setDout_resets (m : Memory) : (s.setDout m).resets = s.resets := rfl

@[simp] theorem State.setHost_cfg (l : List HostAction) : (s.setHost l).cfg = s.cfg := rfl
@[simp] theorem State.setHost_p (l : List HostAction) : (s.setHost l).p = s.p := rfl
@[simp] theorem State.setHost_rk (l : List HostAction) : (s.setHost l).rk = s.rk := rfl
@[simp] theorem State.setHost_nr (l : List HostAction) : (s.setHost l).nr = s.nr := rfl
@[simp] theorem State.setHost_kvalid (l : List HostAction) : (s.setHost l).kvalid = s.kvalid := rfl
@[simp] theorem State.setHost_pvalid (l : List HostAction) : (s.setHost l).pvalid = s.pvalid := rfl
@[simp] theorem State.setHost_err (l : List HostAction) : (s.setHost l).err = s.err := rfl
@[simp] theorem State.setHost_seq (l : List HostAction) : (s.setHost l).seq = s.seq := rfl
@[simp] theorem State.setHost_klen (l : List HostAction) : (s.setHost l).klen = s.klen := rfl
@[simp] theorem State.setHost_count (l : List HostAction) : (s.setHost l).count = s.count := rfl
@[simp] theorem State.setHost_keybuf (l : List HostAction) : (s.setHost l).keybuf = s.keybuf := rfl
@[simp] theorem State.setHost_din (l : List HostAction) : (s.setHost l).din = s.din := rfl
@[simp] theorem State.setHost_dout (l : List HostAction) : (s.setHost l).dout = s.dout := rfl
@[simp] theorem State.setHost_host (l : List HostAction) : (s.setHost l).host = l := rfl
@[simp] theorem State.setHost_resets (l : List HostAction) : (s.setHost l).resets = s.resets := rfl

@[simp] theorem State.setP_roundKeyPlanes (b : Batch s.cfg.W) (rk : Nat) :
    (s.setP b).roundKeyPlanes rk = s.roundKeyPlanes rk := rfl
@[simp] theorem State.setPvalid_roundKeyPlanes (v : Bool) (rk : Nat) :
    (s.setPvalid v).roundKeyPlanes rk = s.roundKeyPlanes rk := rfl
@[simp] theorem State.setErr_roundKeyPlanes (e : Err) (rk : Nat) :
    (s.setErr e).roundKeyPlanes rk = s.roundKeyPlanes rk := rfl
@[simp] theorem State.setSeq_roundKeyPlanes (v : BitVec 6) (rk : Nat) :
    (s.setSeq v).roundKeyPlanes rk = s.roundKeyPlanes rk := rfl
@[simp] theorem State.setKlen_roundKeyPlanes (v : Byte) (rk : Nat) :
    (s.setKlen v).roundKeyPlanes rk = s.roundKeyPlanes rk := rfl
@[simp] theorem State.setCount_roundKeyPlanes (v : Byte) (rk : Nat) :
    (s.setCount v).roundKeyPlanes rk = s.roundKeyPlanes rk := rfl
@[simp] theorem State.setKeybuf_roundKeyPlanes (m : Memory) (rk : Nat) :
    (s.setKeybuf m).roundKeyPlanes rk = s.roundKeyPlanes rk := rfl
@[simp] theorem State.setDin_roundKeyPlanes (m : Memory) (rk : Nat) :
    (s.setDin m).roundKeyPlanes rk = s.roundKeyPlanes rk := rfl
@[simp] theorem State.setDout_roundKeyPlanes (m : Memory) (rk : Nat) :
    (s.setDout m).roundKeyPlanes rk = s.roundKeyPlanes rk := rfl
@[simp] theorem State.setHost_roundKeyPlanes (l : List HostAction) (rk : Nat) :
    (s.setHost l).roundKeyPlanes rk = s.roundKeyPlanes rk := rfl

@[simp] theorem State.setErr_setErr (e e' : Err) : (s.setErr e).setErr e' = s.setErr e' := rfl
@[simp] theorem State.setSeq_setSeq (v v' : BitVec 6) : (s.setSeq v).setSeq v' = s.setSeq v' := rfl
@[simp] theorem State.setP_setP (b b' : Batch s.cfg.W) : (s.setP b).setP b' = s.setP b' := rfl
@[simp] theorem State.setDout_setDout (m m' : Memory) : (s.setDout m).setDout m' = s.setDout m' := rfl

/-- Writing `ERR` what it holds changes nothing. -/
theorem State.setErr_self : s.setErr s.err = s := rfl

/-- Writing `SEQ` what it holds changes nothing. -/
theorem State.setSeq_self : s.setSeq s.seq = s := rfl

/-! ## The state after reset -/

variable (cfg : Config) (keybuf din dout : Memory)

@[simp] theorem State.resetOf_cfg : (State.resetOf cfg keybuf din dout).cfg = cfg := rfl
@[simp] theorem State.resetOf_p : (State.resetOf cfg keybuf din dout).p = none := rfl
@[simp] theorem State.resetOf_nr : (State.resetOf cfg keybuf din dout).nr = 0 := rfl
@[simp] theorem State.resetOf_kvalid : (State.resetOf cfg keybuf din dout).kvalid = false := rfl
@[simp] theorem State.resetOf_pvalid : (State.resetOf cfg keybuf din dout).pvalid = false := rfl
@[simp] theorem State.resetOf_err : (State.resetOf cfg keybuf din dout).err = .success := rfl
@[simp] theorem State.resetOf_seq : (State.resetOf cfg keybuf din dout).seq = 0 := rfl
@[simp] theorem State.resetOf_klen : (State.resetOf cfg keybuf din dout).klen = 0 := rfl
@[simp] theorem State.resetOf_count : (State.resetOf cfg keybuf din dout).count = 0 := rfl
@[simp] theorem State.resetOf_keybuf : (State.resetOf cfg keybuf din dout).keybuf = keybuf := rfl
@[simp] theorem State.resetOf_din : (State.resetOf cfg keybuf din dout).din = din := rfl
@[simp] theorem State.resetOf_dout : (State.resetOf cfg keybuf din dout).dout = dout := rfl
@[simp] theorem State.resetOf_host : (State.resetOf cfg keybuf din dout).host = [] := rfl
@[simp] theorem State.resetOf_resets : (State.resetOf cfg keybuf din dout).resets = 0 := rfl

@[simp] theorem State.resetOf_rk (rk : Fin 15) : (State.resetOf cfg keybuf din dout).rk[rk] = none := by
  show (Vector.replicate 15 none)[rk.val] = none
  rw [Vector.getElem_replicate]

end Sys2Proof.Machine
end

