-- ==== Sys2Proof/Laws/Host.lean ====
section
/-! SUPPORT. What each host action, and one step, can answer. -/

namespace Sys2Proof.Machine

/-! ## The state after a reset event, field by field -/

variable (s : State)

@[simp] theorem resetEvent_cfg : (resetEvent s).cfg = s.cfg := rfl
@[simp] theorem resetEvent_p : (resetEvent s).p = none := rfl
@[simp] theorem resetEvent_rk (rk : Fin 15) : (resetEvent s).rk[rk] = none := by
  show (Vector.replicate 15 none)[rk.val] = none
  rw [Vector.getElem_replicate]
@[simp] theorem resetEvent_nr : (resetEvent s).nr = 0 := rfl
@[simp] theorem resetEvent_kvalid : (resetEvent s).kvalid = false := rfl
@[simp] theorem resetEvent_pvalid : (resetEvent s).pvalid = false := rfl
@[simp] theorem resetEvent_err : (resetEvent s).err = .success := rfl
@[simp] theorem resetEvent_seq : (resetEvent s).seq = 0 := rfl
@[simp] theorem resetEvent_klen : (resetEvent s).klen = 0 := rfl
@[simp] theorem resetEvent_count : (resetEvent s).count = 0 := rfl
@[simp] theorem resetEvent_keybuf :
    (resetEvent s).keybuf = Memory.afterReset s .keybuf := by
  simp only [resetEvent, State.resetOf]
@[simp] theorem resetEvent_din : (resetEvent s).din = Memory.afterReset s .din := by
  simp only [resetEvent, State.resetOf]
@[simp] theorem resetEvent_dout : (resetEvent s).dout = Memory.afterReset s .dout := by
  simp only [resetEvent, State.resetOf]
@[simp] theorem resetEvent_host : (resetEvent s).host = s.host := rfl
@[simp] theorem resetEvent_resets : (resetEvent s).resets = s.resets + 1 := rfl

/-! ## Everything an action and a step can answer -/

/-- A command word is refused unless it decodes; then its operation runs. -/
theorem issue_next {s t : State} {w : Byte} (h : issue w s = .next t) : ∃ i, decode w = .ok i ∧ exec i s = .next t := by
  unfold issue at h
  cases hd : decode w with
  | ok i => rw [hd] at h; exact ⟨i, rfl, h⟩
  | error e => rw [hd] at h; cases h

/-- What a host action that completes has done. -/
theorem perform_next {s t : State} {a : HostAction} (h : perform a s = .next t) :
    (∃ w i, a = .command w ∧ decode w = .ok i ∧ exec i s = .next t) ∨
      (∃ off v, a = .writeKeybuf off v ∧ off < 32 ∧ t = s.setKeybuf (Memory.write s.keybuf off v)) ∨
      (∃ v, a = .writeKlen v ∧ t = s.setKlen v) ∨
      (∃ off v, a = .writeDin off v ∧ off < 16 * s.cfg.W ∧ t = s.setDin (Memory.write s.din off v)) ∨
      (∃ v, a = .writeCount v ∧ t = s.setCount v) ∨ (a = .reset ∧ t = resetEvent s) := by
  cases a with
  | command w =>
    obtain ⟨i, h1, h2⟩ := issue_next h
    exact .inl ⟨w, i, rfl, h1, h2⟩
  | writeKeybuf off v =>
    simp only [perform, hostWriteKeybuf] at h
    split at h
    · rename_i hlt
      cases h
      exact .inr (.inl ⟨off, v, rfl, hlt, rfl⟩)
    · cases h
  | writeKlen v =>
    cases h
    exact .inr (.inr (.inl ⟨v, rfl, rfl⟩))
  | writeDin off v =>
    simp only [perform, hostWriteDin] at h
    split at h
    · rename_i hlt
      cases h
      exact .inr (.inr (.inr (.inl ⟨off, v, rfl, hlt, rfl⟩)))
    · cases h
  | writeCount v =>
    cases h
    exact .inr (.inr (.inr (.inr (.inl ⟨v, rfl, rfl⟩))))
  | reset =>
    cases h
    exact .inr (.inr (.inr (.inr (.inr ⟨rfl, rfl⟩))))

/-- A step that completes is idle, or its first host action completed. -/
theorem step_next {s t : State} (h : step s = .next t) :
    (s.host = [] ∧ t = s) ∨ ∃ a rest, s.host = a :: rest ∧ perform a (s.setHost rest) = .next t := by
  unfold step at h
  cases hh : s.host with
  | nil =>
    rw [hh] at h
    cases h
    exact .inl ⟨rfl, rfl⟩
  | cons a rest =>
    rw [hh] at h
    exact .inr ⟨a, rest, rfl, h⟩

end Sys2Proof.Machine
end

