-- ==== Sys2Proof/Laws/Planes.lean ====
section
/-! SUPPORT. Bits, planes, slices and batches: what each way of putting them together holds at each place. -/

namespace Sys2Proof

@[simp] theorem getElem_tabulate {α : Type} {n : Nat} (f : Fin n → α) (i : Nat) (h : i < n) :
    (tabulate n f)[i] = f ⟨i, h⟩ := by simp [tabulate]

@[simp] theorem getElem_tabulate_fin {α : Type} {n : Nat} (f : Fin n → α) (i : Fin n) : (tabulate n f)[i] = f i := by
  simp [tabulate]

namespace Machine

/-- Bit `k` of the value made of `f` is `f k`. -/
@[simp] theorem getLsbD_laneBits (w : Nat) (f : Nat → Bool) (k : Nat) :
    (laneBits w f).getLsbD k = (decide (k < w) && f k) := by
  induction w with
  | zero => simp [laneBits]
  | succ n ih =>
    simp only [laneBits, BitVec.getLsbD_cons, ih]
    by_cases hk : k = n
    · simp [hk]
    · have : (k < n + 1) ↔ k < n := by omega
      simp [hk, this]

@[simp] theorem getElem_laneBits (w : Nat) (f : Nat → Bool) (k : Nat) (h : k < w) : (laneBits w f)[k] = f k := by
  rw [← BitVec.getLsbD_eq_getElem, getLsbD_laneBits]
  simp [h]

@[simp] theorem getLsbD_rep (w : Nat) (b : Bool) (k : Nat) : (rep w b).getLsbD k = (decide (k < w) && b) := by
  cases b <;> simp [rep]

/-- Two slices with the same planes are equal. -/
theorem Slice.ext {w : Nat} {a b : Slice w} (h : ∀ j : Fin 8, a[j] = b[j]) : a = b :=
  Vector.ext fun j hj => h ⟨j, hj⟩

@[simp] theorem Slice.getElem_xor {w : Nat} (a b : Slice w) (j : Nat) (h : j < 8) :
    (Slice.xor a b)[j] = a[j] ^^^ b[j] := by simp [Slice.xor]

/-- Bit `j` of the byte in lane `k` is bit `k` of plane `j` (R21, R52). -/
theorem Slice.getLsbD_byte {w : Nat} (q : Slice w) (k j : Nat) (h : j < 8) :
    (Slice.byte q k).getLsbD j = q[j].getLsbD k := by
  rw [Slice.byte, getLsbD_laneBits]
  simp [h]

@[simp] theorem Batch.getElem_slice {w : Nat} (p : Batch w) (b : Fin 16) (j : Nat) (h : j < 8) :
    (Batch.slice p b)[j] = p[8 * b.val + j]'(by omega) := by simp [Batch.slice]

/-- Plane `8b + j` of a batch made of slices is plane `j` of slice `b` (R21). -/
theorem Batch.getElem_ofSlices {w : Nat} (f : Fin 16 → Slice w) (p : Nat) (h : p < 128) :
    (Batch.ofSlices f)[p] = (f ⟨p / 8, by omega⟩)[p % 8]'(by omega) := by
  simp [Batch.ofSlices]

@[simp] theorem Batch.slice_ofSlices {w : Nat} (f : Fin 16 → Slice w) (b : Fin 16) :
    Batch.slice (Batch.ofSlices f) b = f b := by
  refine Vector.ext fun j hj => ?_
  have h1 : (8 * b.val + j) / 8 = b.val := by omega
  have h2 : (8 * b.val + j) % 8 = j := by omega
  simp [Batch.getElem_ofSlices, h1, h2]

@[simp] theorem Batch.getElem_slices {w : Nat} (p : Batch w) (b : Nat) (h : b < 16) :
    (Batch.slices p)[b] = Batch.slice p ⟨b, h⟩ := by simp [Batch.slices]

@[simp] theorem Batch.getElem_slices_fin {w : Nat} (p : Batch w) (b : Fin 16) :
    (Batch.slices p)[b] = Batch.slice p b := by simp [Batch.slices]

/-- Two batches with the same byte positions are equal. -/
theorem Batch.ext_slices {w : Nat} {p q : Batch w} (h : ∀ b, Batch.slice p b = Batch.slice q b) : p = q := by
  refine Vector.ext fun i hi => ?_
  have h1 := congrArg (fun s : Slice w => s[i % 8]'(by omega)) (h ⟨i / 8, by omega⟩)
  have h2 : 8 * (i / 8) + i % 8 = i := by omega
  simpa [h2] using h1

/-- Bit `j` of byte `b` in lane `k` is bit `k` of plane `8b + j` (R21, R23). -/
theorem Batch.getLsbD_byte {w : Nat} (p : Batch w) (b : Fin 16) (k j : Nat) (h : j < 8) :
    (Batch.byte p b k).getLsbD j = (p[8 * b.val + j]'(by omega)).getLsbD k := by
  rw [Batch.byte, Slice.getLsbD_byte _ _ _ h, Batch.getElem_slice]

/-- Plane `8b + j` of a replicated round key is `rep` of bit `j` of its byte `b` (R26). -/
theorem Batch.getElem_replicated (w : Nat) (key : Fin 16 → Byte) (p : Nat) (h : p < 128) :
    (Batch.replicated w key)[p] = rep w ((key ⟨p / 8, by omega⟩).getLsbD (p % 8)) := by
  rw [Batch.replicated, Batch.getElem_ofSlices, getElem_tabulate]

/-- Bit `k` of plane `8b + j` after `ENCODE` (R91). -/
theorem getLsbD_encodeBlocks (w n : Nat) (m : Memory) (p k : Nat) (h : p < 128) :
    ((encodeBlocks w n m)[p]).getLsbD k =
      (decide (k < w) && (decide (k < n) && (Memory.read m (blockOffset k (p / 8))).getLsbD (p % 8))) := by
  simp [encodeBlocks]

@[simp] theorem length_decodedBytes {w : Nat} (n : Nat) (p : Batch w) : (decodedBytes n p).length = 16 * n := by
  simp [decodedBytes]

/-- `position` takes a byte position apart and back (R22). -/
@[simp] theorem position_row_column (b : Fin 16) : position (row b) (column b) = b := by
  ext
  simp only [position, row, column]
  omega

/-- A gate-wise map from planes to planes: it commutes with XOR, AND and NOT. -/
structure GateMap (w v : Nat) (h : BitVec w → BitVec v) : Prop where
  xor : ∀ a b, h (a ^^^ b) = h a ^^^ h b
  and : ∀ a b, h (a &&& b) = h a &&& h b
  not : ∀ a, h (~~~a) = ~~~h a

/-- Taking one lane out is a gate-wise map (R109, R130). -/
theorem gateMap_lane {w k : Nat} (hk : k < w) : GateMap w 1 fun v => BitVec.ofBool (v.getLsbD k) where
  xor a b := by simp
  and a b := by simp
  not a := by simp [hk]

@[simp] theorem GateMap.xor_slice {w v : Nat} {h : BitVec w → BitVec v} (H : GateMap w v h) (a b : Slice w) :
    (Slice.xor a b).map h = Slice.xor (a.map h) (b.map h) := by
  refine Vector.ext fun j hj => ?_
  simp [H.xor]

theorem GateMap.xt {w v : Nat} {h : BitVec w → BitVec v} (H : GateMap w v h) (a : Slice w) :
    Machine.xt (a.map h) = (Machine.xt a).map h := by
  simp [Machine.xt, H.xor]

end Machine
end Sys2Proof
end

