-- ==== Sys2Proof/Laws/Invariant.lean ====
section
/-! SUPPORT. Small lemmas about the invariant and the views of Safety.lean. -/

namespace Sys2Proof.Machine

@[simp] theorem keyReplicated_none {w : Nat} : keyReplicated (none : Option (Batch w)) = true := rfl

@[simp] theorem keyReplicated_some {w : Nat} (b : Batch w) : keyReplicated (some b) = true ↔ Replicated b := by
  rw [keyReplicated]
  exact decide_eq_true_iff

/-- The planes `EXPAND` builds are replicated across the lanes. -/
theorem replicated_replicated (w : Nat) (key : Fin 16 → Byte) : Replicated (Batch.replicated w key) := by
  intro p
  simp only [Fin.getElem_fin]
  rw [Batch.getElem_replicated _ _ _ p.isLt]
  unfold rep
  split
  · exact .inr rfl
  · exact .inl rfl

/-- Under the invariant, a set `PVALID` means that `P` holds a value. -/
theorem State.Inv.p_some {s : State} (h : s.Inv) (hv : s.pvalid = true) : ∃ b, s.p = some b :=
  Option.isSome_iff_exists.mp (h.1.1 hv)

/-- The two ways to say that `KLEN` is legal. -/
theorem goodKeyLength_iff (s : State) : goodKeyLength s.klen = true ↔ s.LegalKeyLength := by
  unfold State.LegalKeyLength goodKeyLength
  generalize s.klen = k
  revert k
  decide +kernel

/-- `COUNT` is illegal exactly when it is 0 or above `W`. -/
theorem State.not_legalCount (s : State) : ¬s.LegalCount ↔ (s.count.toNat = 0 ∨ s.cfg.W < s.count.toNat) := by
  unfold State.LegalCount
  omega

end Sys2Proof.Machine
end

