-- ==== Sys2Proof/Laws/Ops.lean ====
section
/-! SUPPORT. What each shared operation of the machine can answer. -/

namespace Sys2Proof.Machine

/-! ## Running on: the answer when a check passes -/

theorem atUnitLevel_unit {s : State} (h : s.cfg.level = .unitLevel) (k : Result) : atUnitLevel s k = k := by
  simp [atUnitLevel, h]

theorem atUnitLevel_public {s : State} (h : s.cfg.level = .publicLevel) (k : Result) :
    atUnitLevel s k = .refused .unitAtPublicLevel := by
  simp [atUnitLevel, h]

theorem withBatch_some {s : State} {b : Batch s.cfg.W} (hv : s.pvalid = true) (hp : s.p = some b)
    (k : Batch s.cfg.W → Result) : withBatch s k = k b := by
  simp [withBatch, withValue, hv, hp]

theorem withBatch_none {s : State} (hv : s.pvalid = false) (k : Batch s.cfg.W → Result) :
    withBatch s k = .refused .noBatch := by
  simp [withBatch, hv]

theorem withValue_some {α : Type} (a : α) (r : Refusal) (k : α → Result) : withValue (some a) r k = k a := rfl

theorem withValue_none {α : Type} (r : Refusal) (k : α → Result) : withValue none r k = .refused r := rfl

theorem withSchedule_valid {s : State} (h : s.kvalid = true) (k : Result) : withSchedule s k = k := by
  simp [withSchedule, h]

theorem withSchedule_none {s : State} (h : s.kvalid = false) (k : Result) :
    withSchedule s k = .refused .noSchedule := by
  simp [withSchedule, h]

theorem withRoundKey_some {s : State} {rk : Nat} {key : Batch s.cfg.W} (hv : s.kvalid = true)
    (hle : rk ≤ s.nr.toNat) (hk : s.roundKeyPlanes rk = some key) (k : Batch s.cfg.W → Result) :
    withRoundKey s rk k = k key := by
  simp [withRoundKey, withValue, withSchedule_valid hv, Nat.not_lt.mpr hle, hk]

theorem withRoundKey_above {s : State} {rk : Nat} (hv : s.kvalid = true) (hlt : s.nr.toNat < rk)
    (k : Batch s.cfg.W → Result) : withRoundKey s rk k = .refused (.noRoundKey rk) := by
  simp [withRoundKey, withSchedule_valid hv, hlt]

theorem withCount_legal {s : State} (h1 : 1 ≤ s.count.toNat) (h2 : s.count.toNat ≤ s.cfg.W) (k : Nat → Result) :
    withCount s k = k s.count.toNat := by
  have : badCount s = false := by
    simp only [badCount, Bool.or_eq_false_iff, decide_eq_false_iff_not]
    omega
  simp [withCount, this]

theorem withCount_bad {s : State} (h : s.count.toNat = 0 ∨ s.cfg.W < s.count.toNat) (k : Nat → Result) :
    withCount s k = .next (s.setErr .invalidBatchSize) := by
  have : badCount s = true := by simpa [badCount] using h
  simp [withCount, this, raise]

theorem transform_some {s : State} {b : Batch s.cfg.W} (hv : s.pvalid = true) (hp : s.p = some b)
    (f : Batch s.cfg.W → Batch s.cfg.W) : transform s f = .next ((s.setP (f b)).setErr .success) := by
  simp [transform, withBatch_some hv hp, succeed]

/-! ## Everything a shared operation can answer -/

theorem atUnitLevel_cases (s : State) (k : Result) :
    (s.cfg.level = .unitLevel ∧ atUnitLevel s k = k) ∨
      (s.cfg.level = .publicLevel ∧ atUnitLevel s k = .refused .unitAtPublicLevel) := by
  cases h : s.cfg.level with
  | publicLevel => exact .inr ⟨rfl, atUnitLevel_public h k⟩
  | unitLevel => exact .inl ⟨rfl, atUnitLevel_unit h k⟩

theorem withBatch_cases (s : State) (k : Batch s.cfg.W → Result) :
    (∃ b, s.pvalid = true ∧ s.p = some b ∧ withBatch s k = k b) ∨
      ((s.pvalid = false ∨ s.p = none) ∧ withBatch s k = .refused .noBatch) := by
  cases hv : s.pvalid with
  | false => exact .inr ⟨.inl rfl, withBatch_none hv k⟩
  | true =>
    cases hp : s.p with
    | none => exact .inr ⟨.inr rfl, by simp [withBatch, withValue, hv, hp]⟩
    | some b => exact .inl ⟨b, rfl, rfl, withBatch_some hv hp k⟩

theorem withSchedule_cases (s : State) (k : Result) :
    (s.kvalid = true ∧ withSchedule s k = k) ∨ (s.kvalid = false ∧ withSchedule s k = .refused .noSchedule) := by
  cases h : s.kvalid with
  | false => exact .inr ⟨rfl, withSchedule_none h k⟩
  | true => exact .inl ⟨rfl, withSchedule_valid h k⟩

theorem withRoundKey_cases (s : State) (rk : Nat) (k : Batch s.cfg.W → Result) :
    (∃ key, s.kvalid = true ∧ rk ≤ s.nr.toNat ∧ s.roundKeyPlanes rk = some key ∧ withRoundKey s rk k = k key) ∨
      (s.kvalid = false ∧ withRoundKey s rk k = .refused .noSchedule) ∨
      (s.kvalid = true ∧ (s.nr.toNat < rk ∨ ¬∃ key, s.roundKeyPlanes rk = some key) ∧
        withRoundKey s rk k = .refused (.noRoundKey rk)) := by
  cases hv : s.kvalid with
  | false => exact .inr (.inl ⟨rfl, withSchedule_none hv _⟩)
  | true =>
    by_cases hlt : s.nr.toNat < rk
    · exact .inr (.inr ⟨rfl, .inl hlt, withRoundKey_above hv hlt k⟩)
    · by_cases hk : ∃ key, s.roundKeyPlanes rk = some key
      · obtain ⟨key, hk⟩ := hk
        exact .inl ⟨key, rfl, by omega, hk, withRoundKey_some hv (by omega) hk k⟩
      · refine .inr (.inr ⟨rfl, .inr hk, ?_⟩)
        have hn : s.roundKeyPlanes rk = none := Option.not_isSome_iff_eq_none.mp fun h => hk (Option.isSome_iff_exists.mp h)
        simp [withRoundKey, withValue, withSchedule_valid hv, hn]

theorem withCount_cases (s : State) (k : Nat → Result) :
    (1 ≤ s.count.toNat ∧ s.count.toNat ≤ s.cfg.W ∧ withCount s k = k s.count.toNat) ∨
      ((s.count.toNat = 0 ∨ s.cfg.W < s.count.toNat) ∧ withCount s k = .next (s.setErr .invalidBatchSize)) := by
  by_cases h : s.count.toNat = 0 ∨ s.cfg.W < s.count.toNat
  · exact .inr ⟨h, withCount_bad h k⟩
  · exact .inl ⟨by omega, by omega, withCount_legal (by omega) (by omega) k⟩

theorem transform_cases (s : State) (f : Batch s.cfg.W → Batch s.cfg.W) :
    (∃ b, s.pvalid = true ∧ s.p = some b ∧ transform s f = .next ((s.setP (f b)).setErr .success)) ∨
      ((s.pvalid = false ∨ s.p = none) ∧ transform s f = .refused .noBatch) := by
  rcases withBatch_cases s (fun b => succeed (s.setP (f b))) with ⟨b, hv, hp, h⟩ | ⟨hn, h⟩
  · exact .inl ⟨b, hv, hp, h⟩
  · exact .inr ⟨hn, h⟩

end Sys2Proof.Machine
end

