-- ==== Sys2Proof/Laws/Orchestrator.lean ====
section
/-! SUPPORT. What a unit operation, the sequencer and a whole expansion can answer; that the sequencer is the plain fold
of its list. -/

namespace Sys2Proof.Machine

/-! ## What they write -/

/-- `t` differs from `s` in `P`, `PVALID`, `DOUT` and `ERR` at most, and `PVALID` is not cleared. -/
def DataStep (s t : State) : Prop :=
  (∃ p pv m e, t = { s with p := p, pvalid := pv, dout := m, err := e }) ∧ (s.pvalid = true → t.pvalid = true)

theorem DataStep.refl (s : State) : DataStep s s := ⟨⟨s.p, s.pvalid, s.dout, s.err, rfl⟩, id⟩

theorem DataStep.trans {s t u : State} (h : DataStep s t) (h' : DataStep t u) : DataStep s u := by
  obtain ⟨⟨p, pv, m, e, rfl⟩, hv⟩ := h
  obtain ⟨⟨p', pv', m', e', rfl⟩, hv'⟩ := h'
  exact ⟨⟨p', pv', m', e', rfl⟩, fun h => hv' (hv h)⟩

theorem DataStep.setErr (s : State) (e : Err) : DataStep s (s.setErr e) :=
  ⟨⟨s.p, s.pvalid, s.dout, e, rfl⟩, id⟩

theorem transform_answers (s : State) (f : Batch s.cfg.W → Batch s.cfg.W) :
    (∃ t, transform s f = .next t ∧ DataStep s t) ∨ transform s f = .refused .noBatch := by
  rcases transform_cases s f with ⟨b, _, _, h⟩ | ⟨_, h⟩
  · exact .inl ⟨_, h, ⟨some (f b), s.pvalid, s.dout, .success, rfl⟩, id⟩
  · exact .inr h

/-- A unit operation completes with a data step, or is refused; it never faults. -/
theorem runUnit_answers (u : UnitOp) (s : State) :
    (∃ t, runUnit u s = .next t ∧ DataStep s t) ∨ ∃ r, r ≠ .unitAtPublicLevel ∧ runUnit u s = .refused r := by
  have transformed : ∀ f, runUnit u s = transform s f →
      (∃ t, runUnit u s = .next t ∧ DataStep s t) ∨ ∃ r, r ≠ .unitAtPublicLevel ∧ runUnit u s = .refused r := by
    intro f hu
    rcases transform_answers s f with ⟨t, h, hd⟩ | h
    · exact .inl ⟨t, hu.trans h, hd⟩
    · exact .inr ⟨_, by simp, hu.trans h⟩
  cases u with
  | encode =>
    show (∃ t, unitEncode s = .next t ∧ _) ∨ ∃ r, _ ∧ unitEncode s = .refused r
    unfold unitEncode
    rcases withCount_cases s fun n => succeed ((s.setP (encodeBlocks s.cfg.W n s.din)).setPvalid true) with
      ⟨_, _, h⟩ | ⟨_, h⟩
    · exact .inl ⟨_, h, ⟨_, true, s.dout, .success, rfl⟩, fun _ => rfl⟩
    · exact .inl ⟨_, h, DataStep.setErr s _⟩
  | decode =>
    show (∃ t, unitDecode s = .next t ∧ _) ∨ ∃ r, _ ∧ unitDecode s = .refused r
    unfold unitDecode
    rcases withBatch_cases s fun p => withCount s fun n =>
        succeed (s.setDout (Memory.writeBytes s.dout 0 (decodedBytes n p))) with ⟨b, _, _, h⟩ | ⟨_, h⟩
    · rcases withCount_cases s fun n => succeed (s.setDout (Memory.writeBytes s.dout 0 (decodedBytes n b))) with
        ⟨_, _, h'⟩ | ⟨_, h'⟩
      · exact .inl ⟨_, h.trans h', ⟨s.p, s.pvalid, _, .success, rfl⟩, id⟩
      · exact .inl ⟨_, h.trans h', DataStep.setErr s _⟩
    · exact .inr ⟨_, by simp, h⟩
  | addRoundKey rk =>
    show (∃ t, unitAddRoundKey rk s = .next t ∧ _) ∨ ∃ r, _ ∧ unitAddRoundKey rk s = .refused r
    unfold unitAddRoundKey
    rcases withBatch_cases s fun _ => withRoundKey s rk fun key => transform s (addRoundKey key) with
      ⟨_, _, _, h⟩ | ⟨_, h⟩
    · rcases withRoundKey_cases s rk fun key => transform s (addRoundKey key) with
        ⟨key, _, _, _, h'⟩ | ⟨_, h'⟩ | ⟨_, _, h'⟩
      · rcases transform_answers s (addRoundKey key) with ⟨t, h'', hd⟩ | h''
        · exact .inl ⟨t, h.trans (h'.trans h''), hd⟩
        · exact .inr ⟨_, by simp, h.trans (h'.trans h'')⟩
      · exact .inr ⟨_, by simp, h.trans h'⟩
      · exact .inr ⟨_, by simp, h.trans h'⟩
    · exact .inr ⟨_, by simp, h⟩
  | subBytes | invSubBytes | shiftRows | invShiftRows | mixColumns | invMixColumns => exact transformed _ rfl

/-- Between the codec's entries every unit operation completes, and writes `P` and `ERR` only, once `P` and the round key
it names hold values. -/
theorem runUnit_completes {s : State} {u : UnitOp} (he : u ≠ .encode) (hd : u ≠ .decode) (hv : s.pvalid = true)
    (hp : s.p.isSome = true)
    (hk : ∀ rk, u = .addRoundKey rk → s.kvalid = true ∧ rk ≤ s.nr.toNat ∧ (s.roundKeyPlanes rk).isSome = true) :
    ∃ b : Batch s.cfg.W, runUnit u s = .next ((s.setP b).setErr .success) := by
  obtain ⟨p, hp⟩ := Option.isSome_iff_exists.mp hp
  have transformed : ∀ f, ∃ b : Batch s.cfg.W, transform s f = .next ((s.setP b).setErr .success) :=
    fun f => ⟨f p, transform_some hv hp f⟩
  cases u with
  | encode => exact absurd rfl he
  | decode => exact absurd rfl hd
  | addRoundKey rk =>
    obtain ⟨hkv, hle, hkey⟩ := hk rk rfl
    obtain ⟨key, hkey⟩ := Option.isSome_iff_exists.mp hkey
    obtain ⟨b, hb⟩ := transformed (addRoundKey key)
    refine ⟨b, ?_⟩
    show unitAddRoundKey rk s = _
    unfold unitAddRoundKey
    rw [withBatch_some hv hp, withRoundKey_some hkv hle hkey, hb]
  | subBytes | invSubBytes | shiftRows | invShiftRows | mixColumns | invMixColumns => exact transformed _

/-- At the unit level the host's command is the unit operation. -/
theorem exec_toInstr {s : State} (h : s.cfg.level = .unitLevel) (u : UnitOp) : exec u.toInstr s = runUnit u s := by
  cases u <;>
    simp only [UnitOp.toInstr, exec, execEncode, execDecode, execSubBytes, execInvSubBytes, execShiftRows,
      execInvShiftRows, execMixColumns, execInvMixColumns, execAddRoundKey, atUnitLevel_unit h, runUnit]

/-- `EXPAND` with a legal key length. -/
theorem exec_expand_good {s : State} (h : goodKeyLength s.klen = true) :
    exec .expand s = .next ((s.setSchedule (BitVec.ofNat 4 (roundCount s.klen))
      (roundKeys s.cfg.W (scheduleWords s.keybuf s.klen) (roundCount s.klen))).setErr .success) := by
  simp only [exec, execExpand, h, if_true, succeed]

/-- `EXPAND` with any other key length. -/
theorem exec_expand_bad {s : State} (h : goodKeyLength s.klen = false) :
    exec .expand s = .next (s.setErr .invalidKeyLength) := by
  simp only [exec, execExpand, h, raise, Bool.false_eq_true, if_false]

/-! ## The sequencer is a fold -/

/-- Do `f` to the state of an answer. -/
def mapNext (f : State → State) : Result → Result
  | .next s => .next (f s)
  | .fault r => .fault r
  | .refused r => .refused r

/-- Run unit operations one after the other, with no `SEQ`. -/
def runAll : List UnitOp → State → Result
  | [], s => .next s
  | u :: rest, s =>
    match runUnit u s with
    | .next t => runAll rest t
    | .fault r => .fault r
    | .refused r => .refused r

theorem runAll_append (us vs : List UnitOp) (s : State) :
    runAll (us ++ vs) s =
      match runAll us s with
      | .next t => runAll vs t
      | .fault r => .fault r
      | .refused r => .refused r := by
  induction us generalizing s with
  | nil => rfl
  | cons u rest ih =>
    simp only [List.cons_append, runAll]
    cases runUnit u s with
    | next t => exact ih t
    | fault r => rfl
    | refused r => rfl

/-- A list of unit operations completes with a data step, or is refused; it never faults. -/
theorem runAll_answers (us : List UnitOp) (s : State) :
    (∃ t, runAll us s = .next t ∧ DataStep s t) ∨ ∃ r, r ≠ .unitAtPublicLevel ∧ runAll us s = .refused r := by
  induction us generalizing s with
  | nil => exact .inl ⟨s, rfl, DataStep.refl s⟩
  | cons u rest ih =>
    simp only [runAll]
    rcases runUnit_answers u s with ⟨t, h, hd⟩ | ⟨r, hr, h⟩ <;> rw [h]
    · rcases ih t with ⟨v, h', hd'⟩ | h'
      · exact .inl ⟨v, h', hd.trans hd'⟩
      · exact .inr h'
    · exact .inr ⟨r, hr, rfl⟩

theorem withCount_setSeq (s : State) (v : BitVec 6) (k k' : Nat → Result)
    (h : ∀ n, k n = mapNext (fun t => t.setSeq v) (k' n)) :
    withCount (s.setSeq v) k = mapNext (fun t => t.setSeq v) (withCount s k') := by
  unfold withCount
  rw [show badCount (s.setSeq v) = badCount s from rfl]
  cases badCount s
  · exact h _
  · rfl

theorem withBatch_setSeq (s : State) (v : BitVec 6) (k k' : Batch s.cfg.W → Result)
    (h : ∀ b, k b = mapNext (fun t => t.setSeq v) (k' b)) :
    withBatch (s.setSeq v) k = mapNext (fun t => t.setSeq v) (withBatch s k') := by
  rw [show k = fun b => mapNext (fun t => t.setSeq v) (k' b) from funext h]
  unfold withBatch
  cases hv : s.pvalid
  · simp [hv, mapNext]
  · cases hp : s.p <;> simp [hv, hp, withValue, mapNext]

theorem withRoundKey_setSeq (s : State) (v : BitVec 6) (rk : Nat) (k k' : Batch s.cfg.W → Result)
    (h : ∀ b, k b = mapNext (fun t => t.setSeq v) (k' b)) :
    withRoundKey (s.setSeq v) rk k = mapNext (fun t => t.setSeq v) (withRoundKey s rk k') := by
  rcases withRoundKey_cases s rk k' with ⟨key, hv, hle, hk, e⟩ | ⟨hv, e⟩ | ⟨hv, hn, e⟩ <;> rw [e]
  · exact (withRoundKey_some (s := s.setSeq v) hv hle hk k).trans (h key)
  · exact withSchedule_none (s := s.setSeq v) hv _
  · rcases withRoundKey_cases (s.setSeq v) rk k with ⟨key, _, hle, hk, _⟩ | ⟨hv', _⟩ | ⟨_, _, e'⟩
    · rcases hn with hn | hn
      · exact absurd hle (Nat.not_le.mpr hn)
      · exact absurd ⟨key, hk⟩ hn
    · exact absurd (hv.symm.trans hv') (by simp)
    · exact e'

theorem transform_setSeq (s : State) (v : BitVec 6) (f : Batch s.cfg.W → Batch s.cfg.W) :
    transform (s.setSeq v) f = mapNext (fun t => t.setSeq v) (transform s f) :=
  withBatch_setSeq s v _ _ fun _ => rfl

/-- No unit operation reads or writes `SEQ`. -/
theorem runUnit_setSeq (u : UnitOp) (s : State) (v : BitVec 6) :
    runUnit u (s.setSeq v) = mapNext (fun t => t.setSeq v) (runUnit u s) := by
  cases u with
  | encode =>
    show unitEncode _ = mapNext _ (unitEncode _)
    unfold unitEncode
    exact withCount_setSeq s v _ _ fun _ => rfl
  | decode =>
    show unitDecode _ = mapNext _ (unitDecode _)
    unfold unitDecode
    exact withBatch_setSeq s v _ _ fun _ => withCount_setSeq s v _ _ fun _ => rfl
  | addRoundKey rk =>
    show unitAddRoundKey rk _ = mapNext _ (unitAddRoundKey rk _)
    unfold unitAddRoundKey
    exact withBatch_setSeq s v _ _ fun _ => withRoundKey_setSeq s v rk _ _ fun key => transform_setSeq s v _
  | subBytes | invSubBytes | shiftRows | invShiftRows | mixColumns | invMixColumns => exact transform_setSeq s v _

/-- From entry `i` on, the sequencer runs the rest of its list and leaves `SEQ = 0`. -/
theorem sequencer_eq (ops : List UnitOp) (hl : ops.length < 64) (fuel i : Nat) (hf : ops.length ≤ i + fuel)
    (hi : i ≤ ops.length) (s : State) :
    sequencer ops fuel (s.setSeq (BitVec.ofNat 6 i)) = mapNext (fun t => t.setSeq 0) (runAll (ops.drop i) s) := by
  induction fuel generalizing i s with
  | zero =>
    obtain rfl : i = ops.length := by omega
    simp [sequencer, runAll, mapNext]
  | succ fuel ih =>
    have hn : (BitVec.ofNat 6 i).toNat = i := by
      simp only [BitVec.toNat_ofNat]
      omega
    simp only [sequencer, State.setSeq_seq, hn]
    by_cases hlt : i < ops.length
    · rw [List.getElem?_eq_getElem hlt, List.drop_eq_getElem_cons hlt]
      simp only [runAll, runUnit_setSeq]
      cases runUnit ops[i] s with
      | next t =>
        show sequencer ops fuel ((t.setSeq _).setSeq _) = mapNext _ (runAll _ t)
        rw [← ih (i + 1) (by omega) (by omega) t, BitVec.ofNat_add]
        rfl
      | fault r => rfl
      | refused r => rfl
    · rw [List.getElem?_eq_none (by omega), List.drop_eq_nil_of_le (by omega)]
      rfl

/-- Started at `SEQ = 0`, an expansion is the fold of its list, with `ERR` and `SEQ` 0 at the end. -/
theorem runExpansion_eq (ops : List UnitOp) (hl : ops.length < 64) (s : State) (hs : s.seq = 0) :
    runExpansion ops s = mapNext (fun t => (t.setSeq 0).setErr .success) (runAll ops s) := by
  have h := sequencer_eq ops hl ops.length 0 (by omega) (by omega) s
  rw [show s.setSeq (BitVec.ofNat 6 0) = s by rw [← show s.seq = BitVec.ofNat 6 0 from hs]; rfl] at h
  unfold runExpansion
  rw [h, List.drop_zero]
  cases runAll ops s <;> rfl

/-- The public commands' three answers: no schedule, bad `COUNT`, or the expansion. -/
theorem public_cases (ops : List UnitOp) (s : State) (answer : Result)
    (h : answer = withSchedule s (withCount s fun _ => runExpansion ops s)) :
    (s.kvalid = false ∧ answer = .refused .noSchedule) ∨
      (s.kvalid = true ∧ (s.count.toNat = 0 ∨ s.cfg.W < s.count.toNat) ∧
        answer = .next (s.setErr .invalidBatchSize)) ∨
      (s.kvalid = true ∧ 1 ≤ s.count.toNat ∧ s.count.toNat ≤ s.cfg.W ∧ answer = runExpansion ops s) := by
  subst h
  rcases withSchedule_cases s (withCount s fun _ => runExpansion ops s) with ⟨hk, e⟩ | ⟨hk, e⟩
  · rcases withCount_cases s fun _ => runExpansion ops s with ⟨h1, h2, e'⟩ | ⟨h1, e'⟩
    · exact .inr (.inr ⟨hk, h1, h2, e.trans e'⟩)
    · exact .inr (.inl ⟨hk, h1, e.trans e'⟩)
  · exact .inl ⟨hk, e⟩

end Sys2Proof.Machine
end

