-- ==== Sys2Proof/Laws/PerInstr.lean ====
section
/-! SUPPORT. The family `Encoding`: what holds of every operation's command word, one lemma per constructor. -/

namespace Sys2Proof.Laws.Encoding

/-- The row of spec/opcode_table.json: the bits its mask covers, and their values (R72). -/
def row : Instr → Byte × Byte
  | .expand => (0xFF, 0x01)
  | .encrypt => (0xFF, 0x02)
  | .decrypt => (0xFF, 0x03)
  | .encode => (0xFF, 0x04)
  | .decode => (0xFF, 0x05)
  | .subbytes => (0xFF, 0x06)
  | .invsubbytes => (0xFF, 0x07)
  | .shiftrows => (0xFF, 0x08)
  | .invshiftrows => (0xFF, 0x09)
  | .mixcolumns => (0xFF, 0x0A)
  | .invmixcolumns => (0xFF, 0x0B)
  | .addroundkey _ => (0x0F, 0x0C)

/-- A well-formed operation's word has its row's fixed bits. -/
def Statement (i : Instr) : Prop := WellFormed i → encode i &&& (row i).1 = (row i).2

theorem expand : Statement .expand := fun _ => rfl
theorem encrypt : Statement .encrypt := fun _ => rfl
theorem decrypt : Statement .decrypt := fun _ => rfl
theorem encode : Statement .encode := fun _ => rfl
theorem decode : Statement .decode := fun _ => rfl
theorem subbytes : Statement .subbytes := fun _ => rfl
theorem invsubbytes : Statement .invsubbytes := fun _ => rfl
theorem shiftrows : Statement .shiftrows := fun _ => rfl
theorem invshiftrows : Statement .invshiftrows := fun _ => rfl
theorem mixcolumns : Statement .mixcolumns := fun _ => rfl
theorem invmixcolumns : Statement .invmixcolumns := fun _ => rfl

theorem addroundkey (rk : Nat) : Statement (.addroundkey rk) := by
  intro h
  have all : ∀ r : Fin 16, Sys2Proof.encode (.addroundkey r.val) &&& 0x0F = 0x0C := by decide
  exact all ⟨rk, Nat.lt_succ_of_le (of_decide_eq_true h)⟩

end Sys2Proof.Laws.Encoding
end

