-- ==== Sys2Proof/Machine/SboxCheck.lean ====
section
/-! DEFINITION. The two 256-case checks that a model which executes a circuit must carry (spec/41_sbox.md R107): what is
checked, and that it holds. -/

namespace Sys2Proof.Machine

/-- `S^-1` on one byte, computed by the inverse circuit at width 1. -/
def invSboxByte (a : Byte) : Byte := Slice.byte (invSbox8 (Slice.ofByte a)) 0

/-- R107, first check: for every byte value `a`, `SBOX8` applied to the bits of `a` gives the bits of the entry of R101. -/
def SboxMeetsTable : Prop := ∀ a : Byte, sboxByte a = Reference.S a

/-- R107, second check: for every byte value `a`, `INVSBOX8` gives the entry of R104. -/
def InvSboxMeetsTable : Prop := ∀ a : Byte, invSboxByte a = Reference.invS a

/-- The first check, decided on all 256 values (R107). -/
theorem sboxMeetsTable : SboxMeetsTable := by
  unfold SboxMeetsTable
  decide +kernel

/-- The second check, decided on all 256 values (R107). -/
theorem invSboxMeetsTable : InvSboxMeetsTable := by
  unfold InvSboxMeetsTable
  decide +kernel

end Sys2Proof.Machine
end

