-- ==== Sys2Proof/Laws/Sbox.lean ====
section
/-! SUPPORT. The S-box circuit commutes with gate-wise maps, and is the table of R101 on one byte. -/

namespace Sys2Proof.Machine

/-- The circuit is made of gates, so it commutes with every gate-wise map of planes (R109). -/
theorem sbox8_map {w v : Nat} {h : BitVec w → BitVec v} (H : GateMap w v h) (q : Slice w) :
    sbox8 (q.map h) = (sbox8 q).map h := by
  simp only [sbox8, Vector.getElem_map, ← H.xor, ← H.and, ← H.not]
  simp

theorem invAffine8_map {w v : Nat} {h : BitVec w → BitVec v} (H : GateMap w v h) (q : Slice w) :
    invAffine8 (q.map h) = (invAffine8 q).map h := by
  simp only [invAffine8, Vector.getElem_map, ← H.xor, ← H.not]
  simp

/-- The inverse circuit commutes with every gate-wise map of planes (R109). -/
theorem invSbox8_map {w v : Nat} {h : BitVec w → BitVec v} (H : GateMap w v h) (q : Slice w) :
    invSbox8 (q.map h) = (invSbox8 q).map h := by
  simp [invSbox8, invAffine8_map H, sbox8_map H]

/-- One lane of a slice, as a slice of width 1, is the byte in that lane on eight one-bit planes. -/
theorem Slice.map_lane {w : Nat} (q : Slice w) (k : Nat) :
    q.map (fun v => BitVec.ofBool (v.getLsbD k)) = Slice.ofByte (Slice.byte q k) := by
  refine Vector.ext fun j hj => ?_
  simp [Slice.ofByte, Slice.byte]

/-- The byte in lane 0 of one lane is the byte in that lane. -/
theorem Slice.byte_map_lane {w : Nat} (q : Slice w) (k : Nat) :
    Slice.byte (q.map (fun v => BitVec.ofBool (v.getLsbD k))) 0 = Slice.byte q k := by
  refine BitVec.eq_of_getLsbD_eq fun j hj => ?_
  simp [Slice.byte, hj]

/-- The circuit on one byte is the table of R101 (R107). -/
theorem sboxByte_eq_table : ∀ a : Byte, sboxByte a = Reference.S a := sboxMeetsTable

/-- The inverse circuit on one byte is the table of R104 (R107). -/
theorem invSbox8_eq_table : ∀ a : Byte, Slice.byte (invSbox8 (Slice.ofByte a)) 0 = Reference.invS a :=
  invSboxMeetsTable

end Sys2Proof.Machine
end

