-- ==== Sys2Proof/Laws/Trace.lean ====
section
/-! SUPPORT. The circuits of Machine/Trace.lean compute what the machine runs, at every width. -/

namespace Sys2Proof.Machine

theorem slice_toList {w : Nat} (q : Slice w) : q.toList = [q[0], q[1], q[2], q[3], q[4], q[5], q[6], q[7]] := by
  refine List.ext_getElem (by simp) fun i h _ => ?_
  have h8 : i < 8 := by simpa using h
  rw [Vector.getElem_toList]
  interval_cases i <;> rfl

theorem sboxCircuit_eval {w : Nat} (q : Slice w) : sboxCircuit.eval q.toList = sbox8 q := by
  rw [slice_toList]
  simp only [Circuit.eval, sboxCircuit, sboxGates, sboxTop, sboxMiddleFirst, sboxMiddleSecond, sboxMiddleThird,
    sboxBottom, runGates, Gate.value, List.cons_append, List.nil_append, List.getD_cons_succ, List.getD_cons_zero]
  rfl

theorem invAffineCircuit_eval {w : Nat} (q : Slice w) : invAffineCircuit.eval q.toList = invAffine8 q := by
  rw [slice_toList]
  simp only [Circuit.eval, invAffineCircuit, runGates, Gate.value, List.cons_append, List.nil_append,
    List.getD_cons_succ, List.getD_cons_zero]
  rfl

theorem invSboxByGates_eq {w : Nat} (q : Slice w) : invSboxByGates q = invSbox8 q := by
  rw [invSboxByGates, invAffineCircuit_eval, sboxCircuit_eval, invAffineCircuit_eval, invSbox8]

/-- `xtCircuit` with its places written out. -/
theorem xtCircuit_eq : xtCircuit = ⟨[⟨.xor, 0, 7⟩, ⟨.xor, 2, 7⟩, ⟨.xor, 3, 7⟩], #v[7, 8, 1, 9, 10, 4, 5, 6]⟩ := by
  decide

theorem xtCircuit_eval {w : Nat} (q : Slice w) : xtCircuit.eval q.toList = xt q := by
  rw [slice_toList, xtCircuit_eq]
  simp only [Circuit.eval, runGates, Gate.value, List.cons_append, List.nil_append, List.getD_cons_succ,
    List.getD_cons_zero]
  rfl

/-- A gate that reads places of `v` only has the same value however `v` goes on. -/
theorem Gate.value_append {w : Nat} (g : Gate) (v u : List (Plane w)) (ha : g.a < v.length) (hb : g.b < v.length) :
    g.value (v ++ u) = g.value v := by
  simp only [Gate.value, List.getD_append _ _ _ _ ha, List.getD_append _ _ _ _ hb]

/-- Gates that read places of `v` only are evaluated side by side. -/
theorem runGates_inputs {w : Nat} (gates : List Gate) (v : List (Plane w))
    (h : ∀ g ∈ gates, g.a < v.length ∧ g.b < v.length) : runGates gates v = v ++ gates.map (·.value v) := by
  suffices ∀ u, runGates gates (v ++ u) = v ++ (u ++ gates.map (·.value v)) by simpa using this []
  induction gates with
  | nil => simp [runGates]
  | cons g gates ih =>
    intro u
    have hg := h g (by simp)
    rw [runGates, Gate.value_append g v u hg.1 hg.2, List.append_assoc, ih (fun g' hg' => h g' (by simp [hg']))]
    simp

theorem runGates_append {w : Nat} (f g : List Gate) (v : List (Plane w)) :
    runGates (f ++ g) v = runGates g (runGates f v) := by
  induction f generalizing v with
  | nil => rfl
  | cons x f ih => simp [runGates, ih]

theorem addRoundKeyCircuit_eval {w : Nat} (key p : Batch w) :
    addRoundKeyCircuit.eval (p.toList ++ key.toList) = addRoundKey key p := by
  refine Vector.ext fun i hi => ?_
  rw [Circuit.eval, addRoundKeyCircuit, runGates_inputs _ _ (by simp; omega)]
  have h1 : 256 + i - 128 - 128 = i := by omega
  have h2 : ¬256 + i - 128 < 128 := by omega
  have h3 : ¬256 + i < 128 := by omega
  simp [addRoundKey, Gate.value, hi, List.getElem?_append, h1, h2, h3]

/-- One output byte of `MIXCOLUMNS` (R125). -/
theorem mixByteCircuit_eval {w : Nat} (a b c d : Slice w) :
    mixByteCircuit.eval (a.toList ++ (b.toList ++ (c.toList ++ d.toList))) =
      Slice.xor (Slice.xor (Slice.xor (xt (Slice.xor a b)) b) c) d := by
  rw [slice_toList a, slice_toList b, slice_toList c, slice_toList d]
  have hg : mixByteCircuit.gates = (List.map (fun t : Nat × Nat => (⟨.xor, t.1, t.2⟩ : Gate))
    [(0, 8),(1,9),(2,10),(3,11),(4,12),(5,13),(6,14),(7,15),(32,39),(34,39),(35,39),
     (39,8),(40,9),(33,10),(41,11),(42,12),(36,13),(37,14),(38,15),
     (43,16),(44,17),(45,18),(46,19),(47,20),(48,21),(49,22),(50,23),
     (51,24),(52,25),(53,26),(54,27),(55,28),(56,29),(57,30),(58,31)]) := by decide
  rw [Circuit.eval, hg]
  simp only [List.map, runGates, Gate.value, List.cons_append, List.nil_append, List.getD_cons_succ, List.getD_cons_zero]
  rfl

/-- The powers of one byte, one after the other (R126). -/
theorem powersCircuit_eval {w : Nat} (a : Slice w) :
    (powersCircuit.eval a.toList).toList = a.toList ++ ((xt a).toList ++ ((xt (xt a)).toList ++ (xt (xt (xt a))).toList)) := by
  have hc : powersCircuit = ⟨List.map (fun t : Nat × Nat => (⟨.xor, t.1, t.2⟩ : Gate))
      [(0, 7), (2, 7), (3, 7), (7, 6), (1, 6), (9, 6), (6, 5), (8, 5), (12, 5)],
      #v[0, 1, 2, 3, 4, 5, 6, 7, 7, 8, 1, 9, 10, 4, 5, 6, 6, 11, 8, 12, 13, 10, 4, 5, 5, 14, 11, 15, 16, 13, 10, 4]⟩ := by
    decide
  rw [slice_toList a, Circuit.eval, hc]
  simp only [List.map, runGates, Gate.value, List.cons_append, List.nil_append, List.getD_cons_succ, List.getD_cons_zero]
  rfl

set_option maxRecDepth 4000 in
/-- One output byte of `INVMIXCOLUMNS` from the powers of four bytes (R126). -/
theorem invMixSumCircuit_eval {w : Nat} (a0 a1 a2 a3 b0 b1 b2 b3 c0 c1 c2 c3 d0 d1 d2 d3 : Slice w) :
    invMixSumCircuit.eval ((a0.toList ++ (a1.toList ++ (a2.toList ++ (a3.toList)))) ++
      ((b0.toList ++ (b1.toList ++ (b2.toList ++ (b3.toList)))) ++
      ((c0.toList ++ (c1.toList ++ (c2.toList ++ (c3.toList)))) ++
      (d0.toList ++ (d1.toList ++ (d2.toList ++ (d3.toList))))))) =
    Slice.xor (Slice.xor (Slice.xor (Slice.xor (Slice.xor a3 a2) a1) (Slice.xor (Slice.xor b3 b1) b0))
      (Slice.xor (Slice.xor c3 c2) c0)) (Slice.xor d3 d0) := by
  have hg : invMixSumCircuit.gates = List.map (fun t : Nat × Nat => (⟨.xor, t.1, t.2⟩ : Gate))
      [(24, 16), (25, 17), (26, 18), (27, 19), (28, 20), (29, 21), (30, 22), (31, 23),
       (128, 8), (129, 9), (130, 10), (131, 11), (132, 12), (133, 13), (134, 14), (135, 15),
       (56, 40), (57, 41), (58, 42), (59, 43), (60, 44), (61, 45), (62, 46), (63, 47),
       (144, 32), (145, 33), (146, 34), (147, 35), (148, 36), (149, 37), (150, 38), (151, 39),
       (136, 152), (137, 153), (138, 154), (139, 155), (140, 156), (141, 157), (142, 158), (143, 159),
       (88, 80), (89, 81), (90, 82), (91, 83), (92, 84), (93, 85), (94, 86), (95, 87),
       (168, 64), (169, 65), (170, 66), (171, 67), (172, 68), (173, 69), (174, 70), (175, 71),
       (160, 176), (161, 177), (162, 178), (163, 179), (164, 180), (165, 181), (166, 182), (167, 183),
       (120, 96), (121, 97), (122, 98), (123, 99), (124, 100), (125, 101), (126, 102), (127, 103),
       (184, 192), (185, 193), (186, 194), (187, 195), (188, 196), (189, 197), (190, 198), (191, 199)] := by
    decide
  rw [Circuit.eval, hg]
  simp only [slice_toList, List.map, runGates, Gate.value, List.cons_append, List.nil_append, List.getD_cons_succ,
    List.getD_cons_zero]
  rfl

/-- What a unit operation computes gate by gate is what the machine's own definition of it computes. -/
theorem unitByGates_eq {w : Nat} (key p : Batch w) (op : UnitOp) :
    op.byGates key p = match op with
      | .subBytes => subBytes p
      | .invSubBytes => invSubBytes p
      | .shiftRows => shiftRows p
      | .invShiftRows => invShiftRows p
      | .mixColumns => mixColumns p
      | .invMixColumns => invMixColumns p
      | .addRoundKey _ => addRoundKey key p
      | .encode | .decode => p := by
  cases op with
  | subBytes => simp [UnitOp.byGates, subBytes, sboxCircuit_eval]
  | invSubBytes => simp [UnitOp.byGates, invSubBytes, invSboxByGates_eq]
  | shiftRows => simp [UnitOp.byGates, shiftRows]
  | invShiftRows => simp [UnitOp.byGates, invShiftRows]
  | mixColumns => simp [UnitOp.byGates, mixColumns, columnFrom, List.range_succ, mixByteCircuit_eval]
  | invMixColumns =>
    refine congrArg Batch.ofSlices (funext fun b => ?_)
    simp only [columnFrom, List.range_succ, List.range_zero, List.nil_append, List.cons_append, List.map_cons, List.map_nil,
      List.flatMap_cons, List.flatMap_nil, List.append_nil, powersCircuit_eval, Batch.getElem_slices_fin, mul9, mul11, mul13, mul14]
    exact invMixSumCircuit_eval _ _ _ _ _ _ _ _ _ _ _ _ _ _ _ _
  | addRoundKey rk => exact addRoundKeyCircuit_eval key p
  | encode => rfl
  | decode => rfl

/-- The schedule computed by gates is the schedule `EXPAND` computes (R142, R143). -/
theorem subWordByGates_eq (a : KeyWord) : subWordByGates a = subWord a := by
  refine Vector.ext fun t ht => ?_
  rw [subWordByGates, getElem_tabulate, sboxCircuit_eval]
  interval_cases t <;> rfl

theorem countedStep_fst (nk i : Nat) (prev : KeyWord) : (countedStep nk i prev).1 = keyStep nk i prev := by
  unfold countedStep keyStep
  simp only [subWordByGates_eq]
  split_ifs <;> rfl

theorem countedWords_fst (m : Memory) (nk n : Nat) : (countedWords m nk n).1 = keyWords m nk n := by
  induction n with
  | zero => rfl
  | succ n ih =>
    simp only [countedWords, keyWords, ← ih, ← countedStep_fst]
    split_ifs <;> rfl

theorem countedStep_snd (nk i : Nat) (prev : KeyWord) :
    (countedStep nk i prev).2 = if i % nk = 0 ∨ (nk = 8 ∧ i % nk = 4) then 4 else 0 := by
  unfold countedStep
  by_cases h : i % nk = 0
  · simp [h]
  · by_cases h8 : nk = 8 ∧ i % nk = 4
    · rw [if_neg h, if_pos h8, if_pos (.inr h8)]
    · rw [if_neg h, if_neg h8, if_neg (not_or.mpr ⟨h, h8⟩)]

/-- How often `S` has been evaluated after one more word: the key has no part in it (R145). -/
theorem countedWords_succ_snd (m : Memory) (nk n : Nat) :
    (countedWords m nk (n + 1)).2 = (countedWords m nk n).2 +
      if n < nk then 0 else if n % nk = 0 ∨ (nk = 8 ∧ n % nk = 4) then 4 else 0 := by
  rw [countedWords]
  by_cases h : n < nk
  · simp [h]
  · simp [h, countedStep_snd]

/-- What `EXPAND` computes by gates is its schedule (R141, R142). -/
theorem expandByGates_fst (keybuf : Memory) (klen : Byte) : (expandByGates keybuf klen).1 = scheduleWords keybuf klen :=
  countedWords_fst _ _ _

end Sys2Proof.Machine
end

