-- ==== Sys2Proof/Tests/Slice0.lean ====
section
/-! SUPPORT. Tests: the well-formedness check, decoding, one or two single steps for each operation with results taken
from spec/95_test_vectors.md, and for every statement with hypotheses a state that meets them. -/

namespace Sys2Proof.Tests

open Sys2Proof Sys2Proof.Machine

/-! ## Well-formedness and decoding -/

theorem test_index_16_is_ill_formed : ¬WellFormed (.addroundkey 16) := by decide

theorem test_index_15_is_well_formed : WellFormed (.addroundkey 15) := by decide

/-- Words from the table of R72, bit by bit. -/
theorem test_decode_expand : decode 0b00000001 = .ok .expand := by decide
theorem test_decode_encrypt : decode 0b00000010 = .ok .encrypt := by decide
theorem test_decode_decrypt : decode 0b00000011 = .ok .decrypt := by decide
theorem test_decode_encode : decode 0b00000100 = .ok .encode := by decide
theorem test_decode_decode : decode 0b00000101 = .ok .decode := by decide
theorem test_decode_subbytes : decode 0b00000110 = .ok .subbytes := by decide
theorem test_decode_invsubbytes : decode 0b00000111 = .ok .invsubbytes := by decide
theorem test_decode_shiftrows : decode 0b00001000 = .ok .shiftrows := by decide
theorem test_decode_invshiftrows : decode 0b00001001 = .ok .invshiftrows := by decide
theorem test_decode_mixcolumns : decode 0b00001010 = .ok .mixcolumns := by decide
theorem test_decode_invmixcolumns : decode 0b00001011 = .ok .invmixcolumns := by decide
theorem test_decode_addroundkey_3 : decode 0b00111100 = .ok (.addroundkey 3) := by decide
theorem test_decode_addroundkey_14 : decode 0b11101100 = .ok (.addroundkey 14) := by decide

/-- The reserved words of V0, and V27 row 15. -/
theorem test_reserved_words :
    [0x00, 0x10, 0x0D, 0x0E, 0x0F, 0xFF, 0x12, 0x16, 0xF1].map (decodeTableWord 8) = List.replicate 9 none := by decide

/-- The list of command bytes of R162 for `NR = 10`, its first and last round. -/
theorem test_encrypt_list :
    (assemble ((encryptList 10).map UnitOp.toInstr)).take 6 = [0x04, 0x0C, 0x06, 0x08, 0x0A, 0x1C] ∧
    (assemble ((encryptList 10).map UnitOp.toInstr)).drop 38 = [0x06, 0x08, 0xAC, 0x05] := by decide

/-- The list of command bytes of R163 for `NR = 10`, its first and last round. -/
theorem test_decrypt_list :
    (assemble ((decryptList 10).map UnitOp.toInstr)).take 6 = [0x04, 0xAC, 0x09, 0x07, 0x9C, 0x0B] ∧
    (assemble ((decryptList 10).map UnitOp.toInstr)).drop 34 = [0x09, 0x07, 0x1C, 0x0B, 0x09, 0x07, 0x0C, 0x05] := by
  decide

/-! ## States -/

/-- A core at the unit level. -/
def unitCore (w : Nat) (h : 1 ≤ w) (h' : w ≤ wordBits) : Config := ⟨w, .unitLevel, h, h'⟩

def one : Config := unitCore 1 (by decide) (by decide)

def two : Config := unitCore 2 (by decide) (by decide)

/-- A core at the public level. -/
def twoPublic : Config := ⟨2, .publicLevel, by decide, by decide⟩

/-- The 16 bytes of a block written as in the spec, first byte first. -/
def block (x : Nat) : Reference.Block := tabulate 16 fun b => BitVec.ofNat 8 (x >>> (8 * (15 - b.val)))

/-- A buffer that holds a block at offset 0. -/
def buffer (x : Nat) : Memory := Memory.writeBytes [] 0 (block x).toList

/-- A schedule of `nr` rounds, every round key the block `y`. -/
def keys (w nr y : Nat) : Vector (Option (Batch w)) 15 :=
  tabulate 15 fun rk => if rk.val ≤ nr then some (Batch.replicated w fun b => (block y)[b]) else none

/-- A core that holds a batch, every lane the block `x`, which is also block 0 of `DIN`, and the schedule `keys`. -/
def keyed (cfg : Config) (nr : BitVec 4) (count : Byte) (x y : Nat) : State where
  cfg := cfg
  p := some (Batch.replicated cfg.W fun b => (block x)[b])
  rk := keys cfg.W nr.toNat y
  nr := nr
  kvalid := true
  pvalid := true
  err := .success
  seq := 0
  klen := 16
  count := count
  keybuf := []
  din := buffer x
  dout := []
  host := []
  resets := 0

theorem keys_at (w nr y : Nat) (rk : Fin 15) :
    (keys w nr y)[rk] = if rk.val ≤ nr then some (Batch.replicated w fun b => (block y)[b]) else none := by
  rw [keys, getElem_tabulate_fin]

theorem keyed_inv (cfg : Config) (nr : BitVec 4) (count : Byte) (x y : Nat) (h : nr = 10 ∨ nr = 12 ∨ nr = 14) :
    (keyed cfg nr count x y).Inv := by
  have hx : Memory.wf (buffer x) = true := Memory.wf_writeBytes 0 _ rfl
  have hin : Memory.within (16 * cfg.W) (buffer x) = true :=
    Memory.within_writeBytes 0 _ rfl (by have := cfg.W_pos; simp; omega)
  refine ⟨by simp [keyed], by simpa [State.RoundCountOk, keyed] using h, ⟨fun rk => ?_, fun rk => ?_⟩, rfl,
    ⟨rfl, rfl⟩, ?_, ⟨rfl, rfl⟩⟩
  · show (keys cfg.W nr.toNat y)[rk].isSome = true ↔ true = true ∧ rk.val ≤ nr.toNat
    rw [keys_at]
    split <;> simp [*]
  · show keyReplicated (keys cfg.W nr.toNat y)[rk] = true
    rw [keys_at]
    split
    · rw [keyReplicated_some]
      exact replicated_replicated _ _
    · rfl
  · simp only [keyed]
    exact ⟨hx, hin⟩

/-- What holds of the next state, or nothing if there is none. -/
def after (r : Result) (f : State → Bool) : Bool :=
  match r with
  | .next t => f t
  | _ => false

/-- `P` holds the block `x` in lane `k`. -/
def holds (t : State) (k x : Nat) : Bool := (t.p.map fun b => Batch.block b k) == some (block x)

/-! ## Single steps, results from spec/95_test_vectors.md -/

/-- V8. -/
theorem test_subbytes :
    after (exec .subbytes (keyed one 10 1 0x193de3bea0f4e22b9ac68d2ae9f84808 0))
      (fun t => holds t 0 0xd42711aee0bf98f1b8b45de51e415230 && t.err == .success) = true := by decide +kernel

/-- V8. -/
theorem test_invsubbytes :
    after (exec .invsubbytes (keyed one 10 1 0xe9098972cb31075f3d327d94af2e2cb5 0))
      (fun t => holds t 0 0xeb40f21e592e38848ba113e71bc342d2) = true := by decide +kernel

/-- V12. -/
theorem test_shiftrows :
    after (exec .shiftrows (keyed two 10 1 0x000102030405060708090a0b0c0d0e0f 0))
      (fun t => holds t 1 0x00050a0f04090e03080d02070c01060b) = true := by decide +kernel

/-- V13. -/
theorem test_invshiftrows :
    after (exec .invshiftrows (keyed two 10 1 0x000102030405060708090a0b0c0d0e0f 0))
      (fun t => holds t 1 0x000d0a0704010e0b0805020f0c090603) = true := by decide +kernel

/-- V14, row 1. -/
theorem test_mixcolumns :
    after (exec .mixcolumns (keyed one 10 1 0xdb135345f20a225c01010101c6c6c6c6 0))
      (fun t => holds t 0 0x8e4da1bc9fdc589d01010101c6c6c6c6) = true := by decide +kernel

/-- V15, row 3. -/
theorem test_invmixcolumns :
    after (exec .invmixcolumns (keyed one 10 1 0x80000000000000010000000000000000 0))
      (fun t => holds t 0 0x41ecdaf7090d0b0e0000000000000000) = true := by decide +kernel

/-- V16: the round key is the key itself. -/
theorem test_addroundkey :
    after (exec (.addroundkey 10)
        (keyed two 10 1 0x3243f6a8885a308d313198a2e0370734 0x2b7e151628aed2a6abf7158809cf4f3c))
      (fun t => holds t 1 0x193de3bea0f4e22b9ac68d2ae9f84808) = true := by decide +kernel

/-- V1: planes 8, 12, 17 and 120 are set, planes 0 and 9 are not. -/
theorem test_encode :
    after (exec .encode (keyed one 10 1 0x00112233445566778899aabbccddeeff 0))
      (fun t => (t.p.map fun b => [b[8], b[12], b[17], b[120], b[0], b[9]]) == some [1, 1, 1, 1, 0, 0]) = true := by
  decide +kernel

/-- V3: lanes from `COUNT` on are zero after `ENCODE`. -/
theorem test_encode_fills_with_zeros :
    after (exec .encode (keyed two 10 1 0x3243f6a8885a308d313198a2e0370734 0))
      (fun t => holds t 0 0x3243f6a8885a308d313198a2e0370734 && holds t 1 0) = true := by decide +kernel

/-- V1: `DECODE` gives back the block, and writes no block from `COUNT` on. -/
theorem test_decode :
    after (exec .decode (keyed two 10 1 0x00112233445566778899aabbccddeeff 0))
      (fun t => Memory.block t.dout 0 == block 0x00112233445566778899aabbccddeeff && Memory.block t.dout 1 == block 0) =
      true := by decide +kernel

/-- V17: round keys 1 and 10 of an AES-128 key, `STATUS` of V27 row 3, no value above `RK[10]`. -/
theorem test_expand :
    after (exec .expand { State.resetOf two (buffer 0x2b7e151628aed2a6abf7158809cf4f3c) [] [] with klen := 16 })
      (fun t => t.roundKey 1 == block 0xa0fafe1788542cb123a339392a6c7605 &&
        (t.roundKey 10 == block 0xd014f9a8c9ee2589e13f0cc8b6630ca6 &&
          (t.status == 0xA1 && (t.roundKeyPlanes 11).isNone))) = true := by decide +kernel

/-- V27 row 1: `KLEN = 15`. -/
theorem test_expand_15 :
    after (exec .expand ((State.resetOf two [] [] []).setKlen 15)) (fun t => t.status == 0x04 && t.kvalid == false) =
      true := by decide +kernel

/-- V27 rows 4 and 6: `COUNT = 3` and `COUNT = 0` at `W = 2`. -/
theorem test_encrypt_bad_count :
    after (exec .encrypt { keyed two 10 3 0 0 with p := none, pvalid := false }) (fun t => t.status == 0xA9) = true ∧
    after (exec .decrypt { keyed two 10 0 0 0 with p := none, pvalid := false }) (fun t => t.status == 0xA9) = true := by
  decide +kernel

/-- The refusal comes before the error: `ENCRYPT` after reset, with `COUNT = 0` (R185, V27 row 11). -/
theorem test_encrypt_without_schedule : exec .encrypt State.reset = .refused .noSchedule := by
  simp [exec, execEncrypt, withSchedule, State.reset]

/-- Every operation that transforms a batch completes from a state that holds one and a schedule; `ENCRYPT` and `DECRYPT`
complete as the fold of their lists (a witness that is argued, not evaluated: 42 operations are slow in the kernel). -/
theorem run_middle (us : List UnitOp) (s : State) (hv : s.pvalid = true) (hp : s.p.isSome = true)
    (h : ∀ u ∈ us, u ≠ .encode ∧ u ≠ .decode ∧
      ∀ rk, u = .addRoundKey rk → s.kvalid = true ∧ rk ≤ s.nr.toNat ∧ (s.roundKeyPlanes rk).isSome = true) :
    ∃ t, runAll us s = .next t ∧ t.pvalid = true ∧ t.p.isSome = true ∧ t.cfg = s.cfg ∧ t.count = s.count := by
  induction us generalizing s with
  | nil => exact ⟨s, rfl, hv, hp, rfl, rfl⟩
  | cons u rest ih =>
    obtain ⟨h1, h2, h3⟩ := h u (by simp)
    obtain ⟨b, hb⟩ := runUnit_completes h1 h2 hv hp h3
    obtain ⟨t, ht, hrest⟩ := ih ((s.setP b).setErr .success) hv rfl fun v hm => h v (by simp [hm])
    exact ⟨t, by rw [runAll, hb]; exact ht, hrest⟩

/-! ## States that meet the hypotheses of the statements -/

/-- A core of two lanes with a batch, a schedule and a legal `COUNT`: what most statements ask for. -/
def ready : State := keyed two 10 2 0x3243f6a8885a308d313198a2e0370734 0x2b7e151628aed2a6abf7158809cf4f3c

/-- The same at the public level. -/
def readyPublic : State := keyed twoPublic 14 1 0x3243f6a8885a308d313198a2e0370734 0x2b7e151628aed2a6abf7158809cf4f3c

theorem ready_inv : ready.Inv := keyed_inv _ _ _ _ _ (.inl rfl)

theorem readyPublic_inv : readyPublic.Inv := keyed_inv _ _ _ _ _ (.inr (.inr rfl))

/-- The invariant does not look at `COUNT`, `KLEN` and the host's script. -/
theorem ready_inv_count (n : Byte) : (ready.setCount n).Inv := ready_inv

theorem ready_inv_host (l : List HostAction) : (ready.setHost l).Inv := ready_inv

theorem ready_round_key (rk : Nat) (h : rk ≤ 10) : (ready.roundKeyPlanes rk).isSome = true := by
  have hk := keys_at 2 10 0x2b7e151628aed2a6abf7158809cf4f3c ⟨rk, by omega⟩
  rw [if_pos h] at hk
  have he : ready.roundKeyPlanes rk = (keys 2 10 0x2b7e151628aed2a6abf7158809cf4f3c)[rk]?.join := rfl
  rw [he, Vector.getElem?_eq_getElem (show rk < 15 by omega)]
  show (keys 2 10 0x2b7e151628aed2a6abf7158809cf4f3c)[(⟨rk, by omega⟩ : Fin 15)].isSome = true
  rw [hk]
  rfl

/-- An entry between the codec's two that uses round keys 0 to 10. -/
def middle : UnitOp → Bool
  | .encode | .decode => false
  | .addRoundKey rk => decide (rk ≤ 10)
  | .subBytes | .invSubBytes | .shiftRows | .invShiftRows | .mixColumns | .invMixColumns => true

/-- `ready` runs a whole expansion whose middle stays within the round keys it has. -/
theorem ready_runs (mid : List UnitOp) (hl : mid.length < 62) (h : mid.all middle = true) :
    ∃ t, runExpansion ([.encode] ++ mid ++ [.decode]) ready = .next t := by
  obtain ⟨t, ht, hv, hp, hcfg, hcount⟩ :=
    run_middle mid (((ready.setP (encodeBlocks 2 2 ready.din)).setPvalid true).setErr .success) rfl rfl fun u hu => by
      have hm := List.all_eq_true.mp h u hu
      refine ⟨fun e => by simp [e, middle] at hm, fun e => by simp [e, middle] at hm, fun rk e => ?_⟩
      have hle : rk ≤ 10 := by simpa [e, middle] using hm
      exact ⟨rfl, hle, ready_round_key rk hle⟩
  obtain ⟨b, hb⟩ := Option.isSome_iff_exists.mp hp
  have hlow : 1 ≤ t.count.toNat := by
    rw [hcount]
    decide
  have hhigh : t.count.toNat ≤ t.cfg.W := by
    rw [hcount, hcfg]
    decide
  have he : runAll [.encode] ready =
      .next (((ready.setP (encodeBlocks 2 2 ready.din)).setPvalid true).setErr .success) := by
    simp only [runAll, runUnit, unitEncode]
    rw [withCount_legal (by decide) (by decide)]
    rfl
  rw [runExpansion_eq _ (by simp; omega) _ rfl, List.append_assoc, runAll_append, he]
  simp only []
  rw [runAll_append, ht]
  simp only [runAll, runUnit, unitDecode, withBatch_some hv hb, withCount_legal hlow hhigh, succeed, mapNext]
  exact ⟨_, rfl⟩

theorem ready_encrypts : ∃ t, exec .encrypt ready = .next t := by
  obtain ⟨t, ht⟩ := ready_runs (((encryptList 10).drop 1).take 40) (by decide) (by decide)
  exact ⟨t, ht⟩

theorem ready_decrypts : ∃ t, exec .decrypt ready = .next t := by
  obtain ⟨t, ht⟩ := ready_runs (((decryptList 10).drop 1).take 40) (by decide) (by decide)
  exact ⟨t, ht⟩

theorem witness_DecodeOfEncode : WellFormed (.addroundkey 0) ∧ WellFormed (.addroundkey 15) ∧ WellFormed .encrypt := by
  decide

theorem witness_EncodeOfDecode : decode 0xFC = .ok (.addroundkey 15) ∧ decode 0x0C = .ok (.addroundkey 0) := by decide

theorem witness_ReservedWordsAreRefused :
    decode 0x0D = .error .opAboveTwelve ∧ decode 0x10 = .error .opZero ∧ decode 0x12 = .error .indexNotZero ∧
    (0xFC : Byte).toNat % 16 = 12 ∧ State.reset.nr.toNat < 1 ∧ ready.nr.toNat < 11 := by decide

theorem witness_StepRunsTheDecodedCommand :
    decode 0x08 = .ok .shiftrows ∧ (ready.setHost [.command 0x08]).host = [.command 0x08] := ⟨by decide, rfl⟩

/-- One script for each clause, with the offsets where a buffer ends. -/
theorem witness_HostWritesReachTheirPort :
    (ready.setHost []).Inv ∧ (ready.setHost []).host = [] ∧
    (ready.setHost [.writeKlen 16]).Inv ∧ (ready.setHost [.writeCount 255]).Inv ∧
    (ready.setHost [.writeKeybuf 31 7]).Inv ∧ 31 < 32 ∧ (ready.setHost [.writeKeybuf 32 7]).Inv ∧ 32 ≤ 32 ∧
    (ready.setHost [.writeDin 31 7]).Inv ∧ 31 < 16 * ready.cfg.W ∧
    (ready.setHost [.writeDin 32 7]).Inv ∧ 16 * ready.cfg.W ≤ 32 :=
  ⟨ready_inv, rfl, ready_inv, ready_inv, ready_inv, by decide, ready_inv, by decide, ready_inv, by decide, ready_inv,
    by decide⟩

theorem witness_ResetLeavesTheResetValues : (ready.setHost [.reset]).host = .reset :: [] := rfl

theorem witness_ResetMeetsTheInvariant :
    BufferOk two .keybuf [(31, 7)] ∧ BufferOk two .din [(0, 1), (31, 2)] ∧ BufferOk two .dout [] := by decide

theorem witness_StepKeepsTheInvariant :
    (ready.setHost [.command 0x02]).Inv ∧ ∃ t, step (ready.setHost [.command 0x02]) = .next t :=
  ⟨ready_inv, ready_encrypts⟩

theorem witness_StepKeepsTheParameters : ∃ t, step (ready.setHost [.command 0x03]) = .next t := ready_decrypts

theorem witness_OnlyResetClearsTheValidFlags :
    (∃ t, step (ready.setHost [.command 0x02]) = .next t) ∧
    (∀ rest, (ready.setHost [.command 0x02]).host ≠ .reset :: rest) ∧ ready.kvalid = true ∧ ready.pvalid = true :=
  ⟨ready_encrypts, fun rest h => by simp at h, rfl, rfl⟩

/-- The unit operations complete from `ready`. -/
theorem ready_units (u : UnitOp) (hu : middle u = true) : ∃ t, exec u.toInstr ready = .next t := by
  obtain ⟨b, hb⟩ := runUnit_completes (s := ready) (u := u) (fun e => by simp [e, middle] at hu)
    (fun e => by simp [e, middle] at hu) rfl rfl fun rk e => by
      have hle : rk ≤ 10 := by simpa [e, middle] using hu
      exact ⟨rfl, hle, ready_round_key rk hle⟩
  exact ⟨_, (exec_toInstr rfl u).trans hb⟩

theorem ready_expands : ∃ t, exec .expand ready = .next t ∧ t.err = .success :=
  ⟨_, exec_expand_good (s := ready) (by decide), rfl⟩

/-- Every operation completes from `ready`: one witness for each clause. -/
theorem witness_OperationsWriteOnlyTheirResults :
    ready.Inv ∧ (∃ t, exec .expand ready = .next t) ∧ (∃ t, exec .encode ready = .next t) ∧
    (∃ t, exec .decode ready = .next t) ∧ (∃ t, exec .encrypt ready = .next t) ∧
    (∃ t, exec .decrypt ready = .next t) ∧ (∃ t, exec .subbytes ready = .next t) ∧
    (∃ t, exec .invsubbytes ready = .next t) ∧ (∃ t, exec .shiftrows ready = .next t) ∧
    (∃ t, exec .invshiftrows ready = .next t) ∧ (∃ t, exec .mixcolumns ready = .next t) ∧
    (∃ t, exec .invmixcolumns ready = .next t) ∧ (∃ t, exec (.addroundkey 0) ready = .next t) ∧
    (∃ t, exec (.addroundkey 10) ready = .next t) := by
  obtain ⟨t, ht, _⟩ := ready_expands
  refine ⟨ready_inv, ⟨t, ht⟩, ?_, ?_, ready_encrypts, ready_decrypts, ready_units .subBytes rfl,
    ready_units .invSubBytes rfl, ready_units .shiftRows rfl, ready_units .invShiftRows rfl,
    ready_units .mixColumns rfl, ready_units .invMixColumns rfl, ready_units (.addRoundKey 0) rfl,
    ready_units (.addRoundKey 10) rfl⟩
  · simp only [exec, execEncode, atUnitLevel_unit (s := ready) rfl, unitEncode]
    rw [withCount_legal (by decide) (by decide)]
    exact ⟨_, rfl⟩
  · simp only [exec, execDecode, atUnitLevel_unit (s := ready) rfl, unitDecode]
    rw [withBatch_some (s := ready) rfl rfl, withCount_legal (by decide) (by decide)]
    exact ⟨_, rfl⟩

theorem witness_ExpandRejectsOtherKeyLengths :
    ¬(State.reset.setKlen 0).LegalKeyLength ∧ ¬(State.reset.setKlen 15).LegalKeyLength ∧
    ¬(State.reset.setKlen 17).LegalKeyLength ∧ ¬(State.reset.setKlen 255).LegalKeyLength := by decide

/-- `COUNT = 0` and `COUNT = W + 1`. -/
theorem witness_BadCountRaisesInvalidBatchSize :
    (ready.setCount 0).Inv ∧ ¬(ready.setCount 0).LegalCount ∧ (ready.setCount 3).Inv ∧ ¬(ready.setCount 3).LegalCount ∧
    ready.cfg.level = .unitLevel ∧ ready.pvalid = true ∧ ready.kvalid = true :=
  ⟨ready_inv, by decide, ready_inv, by decide, rfl, rfl, rfl⟩

theorem bad_encrypt : exec .encrypt (ready.setCount 3) = .next ((ready.setCount 3).setErr .invalidBatchSize) := by
  simp only [exec, execEncrypt]
  rw [withSchedule_valid rfl, withCount_bad (.inr (by decide))]

theorem bad_decrypt : exec .decrypt (ready.setCount 0) = .next ((ready.setCount 0).setErr .invalidBatchSize) := by
  simp only [exec, execDecrypt]
  rw [withSchedule_valid rfl, withCount_bad (.inl (by decide))]

theorem bad_decode : exec .decode (ready.setCount 0) = .next ((ready.setCount 0).setErr .invalidBatchSize) := by
  simp only [exec, execDecode]
  rw [atUnitLevel_unit rfl, unitDecode, withBatch_some (s := ready.setCount 0) rfl rfl, withCount_bad (.inl (by decide))]

theorem witness_InvalidKeyLengthExactlyWhen :
    (∃ t, exec .expand (ready.setKlen 15) = .next t ∧ t.err = .invalidKeyLength) ∧
    ∃ t, exec .expand ready = .next t ∧ t.err = .success :=
  ⟨⟨_, exec_expand_bad (s := ready.setKlen 15) (by decide), rfl⟩, ready_expands⟩

theorem witness_InvalidBatchSizeExactlyWhen :
    (∃ t, exec .encrypt (ready.setCount 3) = .next t ∧ t.err = .invalidBatchSize) ∧
    (∃ t, exec .decode (ready.setCount 0) = .next t ∧ t.err = .invalidBatchSize) ∧
    ∃ t, exec .encrypt ready = .next t := ⟨⟨_, bad_encrypt, rfl⟩, ⟨_, bad_decode, rfl⟩, ready_encrypts⟩

theorem witness_RaisingChangesOnlyErr :
    (∃ t, exec .expand (ready.setKlen 33) = .next t ∧ t.err ≠ .success) ∧
    ∃ t, exec .decrypt (ready.setCount 0) = .next t ∧ t.err ≠ .success :=
  ⟨⟨_, exec_expand_bad (s := ready.setKlen 33) (by decide), by simp⟩, _, bad_decrypt, by simp⟩

theorem witness_RefusalsAreExactlyTheList : ready.Inv ∧ readyPublic.Inv ∧ State.reset.Inv :=
  ⟨ready_inv, readyPublic_inv, by decide⟩

theorem witness_UnitOperationsNeedTheUnitLevel :
    Instr.isUnit .encode = true ∧ readyPublic.cfg.level = .publicLevel ∧
    exec .encode readyPublic = .refused .unitAtPublicLevel :=
  ⟨rfl, rfl, by simp only [exec, execEncode, atUnitLevel_public (s := readyPublic) rfl]⟩

theorem witness_PublicHostIsNeverRefused :
    let s := readyPublic.setHost [.writeKlen 15, .command 0x01, .writeDin 31 5, .writeCount 3, .command 0x02,
      .writeKeybuf 31 1, .command 0x03]
    s.Inv ∧ s.kvalid = true ∧ ∀ a ∈ s.host, HostAction.keepsToPublic s.cfg a = true :=
  ⟨readyPublic_inv, rfl, by decide⟩

theorem witness_PublicHostStepKeepsGoing :
    let s := readyPublic.setHost [.writeDin 31 5, .command 0x02]
    s.Inv ∧ s.kvalid = true ∧ (∀ a ∈ s.host, HostAction.keepsToPublic s.cfg a = true) ∧
    readyPublic.Inv ∧ readyPublic.kvalid = true ∧ ∀ a ∈ readyPublic.host, HostAction.keepsToPublic readyPublic.cfg a = true :=
  ⟨readyPublic_inv, rfl, by decide, readyPublic_inv, rfl, by decide⟩

theorem witness_HostReadsThePorts :
    ready.cfg.level = .unitLevel ∧ readyPublic.cfg.level = .publicLevel ∧ 31 < 32 ∧ 31 < 16 * ready.cfg.W := by decide

theorem witness_ExpandBuildsTheSchedule :
    (State.reset.setKlen 16).LegalKeyLength ∧ (State.reset.setKlen 24).LegalKeyLength ∧
    (State.reset.setKlen 32).LegalKeyLength := by decide

/-- `COUNT = 1` and `COUNT = W`, of a core right after reset (`W = 64`). -/
theorem witness_EncodeFillsThePlanes :
    State.reset.cfg.level = .unitLevel ∧ (State.reset.setCount 1).LegalCount ∧ (State.reset.setCount 64).LegalCount := by
  decide

theorem witness_DecodeExtractsTheBlocks :
    ready.Inv ∧ ready.cfg.level = .unitLevel ∧ (∃ p, ready.p = some p) ∧ ready.LegalCount ∧
    (ready.setCount 1).LegalCount := ⟨ready_inv, rfl, ⟨_, rfl⟩, by decide, by decide⟩

theorem witness_CodecRoundTrip :
    ready.Inv ∧ ready.cfg.level = .unitLevel ∧ ready.LegalCount ∧ ∃ p, ready.p = some p :=
  ⟨ready_inv, rfl, by decide, _, rfl⟩

theorem witness_SboxIsAffineOfInverse : (0x53 : Byte) ≠ 0 := by decide

/-- The hypotheses of the statements of one transforming operation each (`SUBBYTES` to `INVMIXCOLUMNS`), and a lane. -/
theorem witness_TransformingOperations :
    ready.cfg.level = .unitLevel ∧ ready.pvalid = true ∧ (∃ p, ready.p = some p) ∧ 0 < ready.cfg.W ∧ 1 < ready.cfg.W :=
  ⟨rfl, rfl, ⟨_, rfl⟩, by decide, by decide⟩

/-- Round keys 0 and `NR`. -/
theorem witness_AddRoundKeyXorsEveryPlane :
    ready.Inv ∧ ready.cfg.level = .unitLevel ∧ (∃ p, ready.p = some p) ∧ ready.kvalid = true ∧
    (0 : Fin 15).val ≤ ready.nr.toNat ∧ (10 : Fin 15).val ≤ ready.nr.toNat :=
  ⟨ready_inv, rfl, ⟨_, rfl⟩, rfl, by decide, by decide⟩

theorem witness_InverseRoundOperationsRestoreP :
    ready.Inv ∧ ready.cfg.level = .unitLevel ∧ ready.pvalid = true ∧ ready.kvalid = true ∧ 10 ≤ ready.nr.toNat :=
  ⟨ready_inv, rfl, rfl, rfl, by decide⟩

/-- Lane 1 of a core of two lanes and lane 0 of a core of one, the same block in both. -/
def readyOne : State := keyed one 10 1 0x3243f6a8885a308d313198a2e0370734 0x2b7e151628aed2a6abf7158809cf4f3c

theorem readyOne_inv : readyOne.Inv := keyed_inv _ _ _ _ _ (.inl rfl)

theorem replicated_block (w k x : Nat) (hk : k < w) :
    Batch.block (Batch.replicated w fun b => (block x)[b]) k = block x := by
  refine Vector.ext fun b hb => BitVec.eq_of_getLsbD_eq fun j hj => ?_
  rw [Batch.block, getElem_tabulate, Batch.getLsbD_byte _ _ _ _ hj, Batch.getElem_replicated _ _ _ (by omega),
    getLsbD_rep]
  have e1 : (8 * b + j) / 8 = b := by omega
  have e2 : (8 * b + j) % 8 = j := by omega
  simp only [e1, e2, hk, decide_true, Bool.true_and]
  rfl

theorem ready_roundKey (s : State) (rk y : Nat) (h : s.rk = keys s.cfg.W 10 y) (hw : 0 < s.cfg.W) (hr : rk ≤ 10) :
    s.roundKey rk = block y := by
  have hk := keys_at s.cfg.W 10 y ⟨rk, by omega⟩
  rw [if_pos hr] at hk
  have hp : s.roundKeyPlanes rk = some (Batch.replicated s.cfg.W fun b => (block y)[b]) := by
    rw [State.roundKeyPlanes, h, Vector.getElem?_eq_getElem (show rk < 15 by omega)]
    exact hk
  rw [State.roundKey, hp]
  exact replicated_block _ _ _ hw

theorem witness_LanesAreIndependent :
    ready.Inv ∧ readyOne.Inv ∧ ready.cfg.level = .unitLevel ∧ readyOne.cfg.level = .unitLevel ∧
    (∃ (p : Batch ready.cfg.W) (p' : Batch readyOne.cfg.W), ready.p = some p ∧ readyOne.p = some p' ∧
      Batch.block p 1 = Batch.block p' 0) ∧ 1 < ready.cfg.W ∧ 0 < readyOne.cfg.W ∧
    ready.kvalid = true ∧ readyOne.kvalid = true ∧ 10 ≤ ready.nr.toNat ∧ 10 ≤ readyOne.nr.toNat ∧
    ready.roundKey 10 = readyOne.roundKey 10 :=
  ⟨ready_inv, readyOne_inv, rfl, rfl, ⟨_, _, rfl, rfl, (replicated_block 2 1 _ (by decide)).trans
    (replicated_block 1 0 _ (by decide)).symm⟩, by decide, by decide, rfl, rfl, by decide, by decide,
    (ready_roundKey ready 10 _ rfl (by decide) (by decide)).trans
      (ready_roundKey readyOne 10 _ rfl (by decide) (by decide)).symm⟩

/-- Rounds 1 and 9 of 10, and the entries where round states meet. -/
theorem witness_ExpansionListsAreTheSpecs :
    1 ≤ 10 ∧ 9 < 10 ∧ 4 * 1 - 2 ≤ 5 ∧ 5 ≤ 4 * 1 + 1 ∧ 4 * 10 - 2 ≤ 38 ∧ 38 ≤ 4 * 10 := by decide

/-- The hypotheses of the statements about whole commands; `LEVEL = public` in the second state. -/
theorem witness_WholeCommands :
    ready.Inv ∧ ready.cfg.level = .unitLevel ∧ ready.kvalid = true ∧ ready.LegalCount ∧
    readyPublic.Inv ∧ readyPublic.kvalid = true ∧ readyPublic.LegalCount :=
  ⟨ready_inv, rfl, rfl, by decide, readyPublic_inv, rfl, by decide⟩

/-- A batch of one on a core of one lane against block 0 of a batch of two. -/
theorem witness_BatchBlocksAreIndependent :
    ready.Inv ∧ readyOne.Inv ∧ ready.kvalid = true ∧ readyOne.kvalid = true ∧ ready.LegalCount ∧ readyOne.count = 1 ∧
    0 < ready.count.toNat ∧ readyOne.nr = ready.nr ∧
    (∀ rk, rk ≤ ready.nr.toNat → readyOne.roundKey rk = ready.roundKey rk) ∧
    Memory.block readyOne.din 0 = Memory.block ready.din 0 :=
  ⟨ready_inv, readyOne_inv, rfl, rfl, by decide, rfl, by decide, rfl, fun rk h =>
    (ready_roundKey readyOne rk _ rfl (by decide) h).trans (ready_roundKey ready rk _ rfl (by decide) h).symm,
    by simp only [ready, readyOne, keyed]⟩

/-- The second state has another `P`, `ERR`, `KLEN`, `KEYBUF` and `DOUT`. -/
theorem witness_PublicResultsReadOnlyTheirOperands :
    let other : State :=
      { ready with p := none, pvalid := false, err := .invalidBatchSize, klen := 0, keybuf := [(0, 1)], dout := [(3, 9)] }
    ready.Inv ∧ other.Inv ∧ ready.kvalid = true ∧ ready.LegalCount := by
  obtain ⟨_, h1, h2, h3, _, h4, _⟩ := ready_inv
  exact ⟨ready_inv, ⟨by simp, h1, h2, h3, by decide, h4, by decide⟩, rfl, by decide⟩

/-- The second state has other blocks and another key. -/
theorem witness_OutcomesDoNotDependOnData :
    let other := keyed two 10 2 0x00112233445566778899aabbccddeeff 0x000102030405060708090a0b0c0d0e0f
    ready.Inv ∧ other.Inv ∧ other.cfg = ready.cfg ∧ other.kvalid = ready.kvalid ∧ other.pvalid = ready.pvalid ∧
    other.nr = ready.nr ∧ other.klen = ready.klen ∧ other.count = ready.count :=
  ⟨ready_inv, keyed_inv _ _ _ _ _ (.inl rfl), rfl, rfl, rfl, rfl, rfl, rfl⟩

/-- R102's and R218's counts: an S-box evaluation is 115 gates, 32 of them AND. -/
theorem test_sbox_gate_count : sboxGates.length = 115 ∧ sboxCircuit.trace.count .and = 32 := by decide

theorem witness_PrimitiveCountsAreTheSpecs :
    ready.Inv ∧ ready.cfg.level = .unitLevel ∧ ready.pvalid = true ∧ (∃ p, ready.p = some p) ∧ ready.LegalCount ∧
    ready.kvalid = true ∧ 0 ≤ ready.nr.toNat ∧ (∃ key, ready.roundKeyPlanes 0 = some key) ∧
    (State.reset.setKlen 24).LegalKeyLength :=
  ⟨ready_inv, rfl, rfl, ⟨_, rfl⟩, by decide, rfl, by decide, ⟨_, rfl⟩, by decide⟩

end Sys2Proof.Tests
end

section
/-! The family `30_encoding`: which command words are reserved (R75), and what level gating refuses (R80). -/

namespace Sys2Proof

/-! ## The two fields of a command word, and the words the decoder reserves -/

@[simp] theorem opField_eq_mod (w : Byte) : opField w = w.toNat % 16 := by
  simp [opField, BitVec.extractLsb'_toNat]

@[simp] theorem indexField_eq_div (w : Byte) : indexField w = w.toNat / 16 := by
  have hlt : w.toNat < 256 := w.isLt
  simp only [indexField, BitVec.extractLsb'_toNat, Nat.shiftRight_eq_div_pow]
  omega

theorem matchWhole_eq_error_iff (w : Byte) (i : Instr) :
    (∃ e, matchWhole w i = .error e) ↔ w.toNat / 16 ≠ 0 := by
  by_cases h : w.toNat / 16 = 0 <;> simp [matchWhole, h]

/-- The decoder's `OP` by `OP`: 0 and above 12 are reserved, 12 never is, and 1 to 11 match all eight bits. -/
theorem decode_eq_error_iff (w : Byte) : (∃ e, decode w = .error e) ↔
    (w.toNat % 16 = 0 ∨ 13 ≤ w.toNat % 16) ∨ (w.toNat % 16 ≠ 12 ∧ w.toNat / 16 ≠ 0) := by
  unfold decode
  rw [opField_eq_mod]
  split
  case h_14 =>
    simp only [imp_false] at *
    exact iff_of_true ⟨_, rfl⟩ (.inl (by omega))
  all_goals
    rename_i hop
    simp [matchWhole_eq_error_iff, hop]

theorem decode_of_op_twelve {w : Byte} (h : w.toNat % 16 = 12) : decode w = .ok (.addroundkey (w.toNat / 16)) := by
  simp [decode, h]

/-- The 256 words, decoded one by one: 64 with `OP` 0 or above 12, and 165 with `OP` 1 to 11 and the field `R` not 0. -/
theorem length_reservedWords : ((List.range 256).filter fun w => (decodeTableWord 8 w).isNone).length = 229 := (rfl)

namespace Machine

theorem issue_reserved {w : Byte} {e : Reserved} (h : decode w = .error e) (s : State) :
    issue w s = .refused (.reservedWord w) := by
  simp [issue, h]

/-! ## The unit operations under the level gate -/

theorem isUnit_iff_exists_toInstr (i : Instr) : Instr.isUnit i = true ↔ ∃ u : UnitOp, u.toInstr = i := by
  constructor
  · cases i with
    | expand | encrypt | decrypt => simp [Instr.isUnit]
    | encode => exact fun _ => ⟨.encode, rfl⟩
    | decode => exact fun _ => ⟨.decode, rfl⟩
    | subbytes => exact fun _ => ⟨.subBytes, rfl⟩
    | invsubbytes => exact fun _ => ⟨.invSubBytes, rfl⟩
    | shiftrows => exact fun _ => ⟨.shiftRows, rfl⟩
    | invshiftrows => exact fun _ => ⟨.invShiftRows, rfl⟩
    | mixcolumns => exact fun _ => ⟨.mixColumns, rfl⟩
    | invmixcolumns => exact fun _ => ⟨.invMixColumns, rfl⟩
    | addroundkey rk => exact fun _ => ⟨.addRoundKey rk, rfl⟩
  · rintro ⟨u, rfl⟩
    cases u <;> rfl

/-- The host's command is the unit operation behind the level gate. -/
theorem exec_toInstr_eq_atUnitLevel (u : UnitOp) (s : State) : exec u.toInstr s = atUnitLevel s (runUnit u s) := by
  cases u <;> rfl

/-- `ADDROUNDKEY rk` with `rk > NR` is refused in every state: by the level gate, for want of a batch or of a schedule, or
for its index (R75, R127). -/
theorem exec_addroundkey_above {s : State} {rk : Nat} (h : s.nr.toNat < rk) :
    ∃ r, exec (.addroundkey rk) s = .refused r := by
  rw [show Instr.addroundkey rk = (UnitOp.addRoundKey rk).toInstr from rfl, exec_toInstr_eq_atUnitLevel]
  rcases atUnitLevel_cases s (runUnit (.addRoundKey rk) s) with ⟨_, e⟩ | ⟨_, e⟩ <;> rw [e]
  · show ∃ r, unitAddRoundKey rk s = .refused r
    unfold unitAddRoundKey
    rcases withBatch_cases s fun _ => withRoundKey s rk fun key => transform s (addRoundKey key) with
      ⟨_, _, _, e⟩ | ⟨_, e⟩ <;> rw [e]
    · rcases withRoundKey_cases s rk fun key => transform s (addRoundKey key) with
        ⟨_, _, hle, _⟩ | ⟨_, e⟩ | ⟨_, _, e⟩
      · omega
      · exact ⟨_, e⟩
      · exact ⟨_, e⟩
    · exact ⟨_, rfl⟩
  · exact ⟨_, rfl⟩

/-! ## Nothing behind the level gate answers with the level refusal -/

theorem runUnit_ne_levelRefusal (u : UnitOp) (s : State) : runUnit u s ≠ .refused .unitAtPublicLevel := by
  rcases runUnit_answers u s with ⟨t, h, _⟩ | ⟨r, hr, h⟩ <;> rw [h]
  · simp
  · simpa using hr

/-- From any `SEQ`, so also in states no run reaches, where the sequencer is not the fold of its list. -/
theorem sequencer_ne_levelRefusal (ops : List UnitOp) (fuel : Nat) (s : State) :
    sequencer ops fuel s ≠ .refused .unitAtPublicLevel := by
  induction fuel generalizing s with
  | zero => simp [sequencer]
  | succ fuel ih =>
    rw [sequencer]
    cases ops[s.seq.toNat]? with
    | none => simp
    | some u =>
      rcases runUnit_answers u s with ⟨t, h, _⟩ | ⟨r, hr, h⟩ <;> simp only [h]
      · exact ih _
      · simpa using hr

theorem runExpansion_ne_levelRefusal (ops : List UnitOp) (s : State) :
    runExpansion ops s ≠ .refused .unitAtPublicLevel := by
  have hs := sequencer_ne_levelRefusal ops ops.length s
  unfold runExpansion
  cases h : sequencer ops ops.length s with
  | next t => simp [succeed]
  | fault r => simp
  | refused r => rwa [h] at hs

/-- `ENCRYPT` and `DECRYPT` have no level gate, and the sequencer issues its entries without one (R160). -/
theorem publicCommand_ne_levelRefusal (ops : List UnitOp) (s : State) :
    withSchedule s (withCount s fun _ => runExpansion ops s) ≠ .refused .unitAtPublicLevel := by
  rcases public_cases ops s _ rfl with ⟨_, e⟩ | ⟨_, _, e⟩ | ⟨_, _, _, e⟩ <;> rw [e]
  · simp
  · simp
  · exact runExpansion_ne_levelRefusal ops s

theorem exec_public_ne_levelRefusal {i : Instr} (h : Instr.isUnit i = false) (s : State) :
    exec i s ≠ .refused .unitAtPublicLevel := by
  cases i with
  | expand =>
    cases hk : goodKeyLength s.klen
    · simp [exec_expand_bad hk]
    · simp [exec_expand_good hk]
  | encrypt => exact publicCommand_ne_levelRefusal _ s
  | decrypt => exact publicCommand_ne_levelRefusal _ s
  | _ => cases h

/-- The level refusal is the answer exactly to a unit operation at the public level (R80). -/
theorem exec_eq_levelRefusal_iff (i : Instr) (s : State) :
    exec i s = .refused .unitAtPublicLevel ↔ Instr.isUnit i = true ∧ s.cfg.level = .publicLevel := by
  by_cases hi : Instr.isUnit i = true
  · obtain ⟨u, rfl⟩ := (isUnit_iff_exists_toInstr i).mp hi
    rw [exec_toInstr_eq_atUnitLevel]
    rcases atUnitLevel_cases s (runUnit u s) with ⟨hl, e⟩ | ⟨hl, e⟩ <;> rw [e]
    · simp [hl, runUnit_ne_levelRefusal]
    · simp [hl, hi]
  · simp [hi, exec_public_ne_levelRefusal (Bool.eq_false_iff.mpr hi)]

/-! ## The obligations -/

/-- Settles O3: the reserved words from the decoder `OP` by `OP`, their number by decoding all 256 words, and the refusal
of an index above `NR` from the checks `ADDROUNDKEY` makes. -/
theorem reservedWordsAreRefused : Obligations.ReservedWordsAreRefused :=
  ⟨decode_eq_error_iff, length_reservedWords, fun _ => decode_of_op_twelve, fun _ _ s h => issue_reserved h s,
    fun _ _ => exec_addroundkey_above⟩

/-- Settles O20: the level refusal answers exactly a unit operation at the public level. -/
theorem unitOperationsNeedTheUnitLevel : Obligations.UnitOperationsNeedTheUnitLevel := fun i s =>
  ⟨fun hi hl => ⟨_, (exec_eq_levelRefusal_iff i s).mpr ⟨hi, hl⟩⟩, (exec_eq_levelRefusal_iff i s).mp⟩

end Machine
end Sys2Proof
end

section
/-! The family `40_codec`: `ENCODE` and `DECODE` block by block (R91, R92), and that they undo each other (R93). -/

namespace Sys2Proof.Machine

/-! ## The two operations when no check stops them -/

theorem exec_encode_legal {s : State} (hl : s.cfg.level = .unitLevel) (hc : s.LegalCount) :
    exec .encode s =
      .next (((s.setP (encodeBlocks s.cfg.W s.count.toNat s.din)).setPvalid true).setErr .success) := by
  show atUnitLevel s (unitEncode s) = _
  rw [atUnitLevel_unit hl, unitEncode, withCount_legal hc.1 hc.2, succeed]

theorem exec_decode_legal {s : State} {p : Batch s.cfg.W} (hl : s.cfg.level = .unitLevel) (hv : s.pvalid = true)
    (hp : s.p = some p) (hc : s.LegalCount) :
    exec .decode s =
      .next ((s.setDout (Memory.writeBytes s.dout 0 (decodedBytes s.count.toNat p))).setErr .success) := by
  show atUnitLevel s (unitDecode s) = _
  rw [atUnitLevel_unit hl, unitDecode, withBatch_some hv hp, withCount_legal hc.1 hc.2, succeed]

/-! ## Blocks -/

theorem blockOffset_lt {n k b : Nat} (hk : k < n) (hb : b < 16) : blockOffset k b < 16 * n := by
  unfold blockOffset
  omega

theorem Memory.getElem_block (m : Memory) (k b : Nat) (h : b < 16) :
    (Memory.block m k)[b] = Memory.read m (blockOffset k b) := by
  rw [Memory.block, getElem_tabulate]

/-- Every offset below `16n` lies in one of the first `n` blocks, so buffers with the same blocks read alike there. -/
theorem Memory.read_eq_of_block_eq {m m' : Memory} {n : Nat} (h : ∀ k, k < n → Memory.block m k = Memory.block m' k)
    {a : Nat} (ha : a < 16 * n) : Memory.read m a = Memory.read m' a := by
  have hb : a % 16 < 16 := by omega
  have hoff : blockOffset (a / 16) (a % 16) = a := Nat.div_add_mod a 16
  rw [← hoff, ← Memory.getElem_block m _ _ hb, ← Memory.getElem_block m' _ _ hb, h _ (by omega)]

/-- The host's copy of the first `n` blocks of one buffer to another (R165). -/
theorem Memory.block_writeBytes_readBytes {m : Memory} (src : Memory) {n k : Nat} (h : Memory.wf m = true)
    (hk : k < n) : Memory.block (Memory.writeBytes m 0 (Memory.readBytes src 0 (16 * n))) k = Memory.block src k := by
  refine Vector.ext fun b hb => ?_
  rw [Memory.getElem_block _ _ _ hb, Memory.getElem_block _ _ _ hb, Memory.read_writeBytes _ _ _ h]
  simp [blockOffset_lt hk hb, Memory.readBytes]

/-- Lane `k` after `ENCODE` of `n` blocks: block `k`, or zeros from lane `n` on (R91). -/
theorem block_encodeBlocks {w k : Nat} (n : Nat) (m : Memory) (hk : k < w) :
    Batch.block (encodeBlocks w n m) k = if k < n then Memory.block m k else Vector.replicate 16 0 := by
  refine Vector.ext fun b hb => BitVec.eq_of_getLsbD_eq fun j hj => ?_
  have hdiv : (8 * b + j) / 8 = b := by omega
  have hmod : (8 * b + j) % 8 = j := by omega
  rw [Batch.block, getElem_tabulate, Batch.getLsbD_byte _ _ _ _ hj, getLsbD_encodeBlocks, hdiv, hmod]
  by_cases hn : k < n
  · simp [hk, hn, Memory.getElem_block]
  · simp [hn]

/-- The byte `DECODE` puts at place `16k + b` is byte `b` of lane `k` (R92). -/
theorem getD_decodedBytes {w n k b : Nat} (p : Batch w) (hk : k < n) (hb : b < 16) :
    (decodedBytes n p).getD (blockOffset k b) 0 = Batch.byte p ⟨b, hb⟩ k := by
  have hlane : blockOffset k b / 16 = k := by unfold blockOffset; omega
  have hpos : position (blockOffset k b % 4) (blockOffset k b % 16 / 4) = ⟨b, hb⟩ := by
    simp only [position, blockOffset, Fin.mk.injEq]
    omega
  simp [decodedBytes, blockOffset_lt hk hb, hlane, hpos]

/-- Block `k` of the buffer `DECODE` wrote is lane `k` of the batch (R92). -/
theorem block_writeBytes_decodedBytes {w n k : Nat} {m : Memory} (p : Batch w) (h : Memory.wf m = true) (hk : k < n) :
    Memory.block (Memory.writeBytes m 0 (decodedBytes n p)) k = Batch.block p k := by
  refine Vector.ext fun b hb => ?_
  rw [Memory.getElem_block _ _ _ hb, Memory.read_writeBytes _ _ _ h,
    if_pos (by simpa using blockOffset_lt hk hb), Nat.sub_zero, getD_decodedBytes p hk hb, Batch.block, getElem_tabulate]

/-! ## The round trips -/

/-- `DECODE` of what `ENCODE` gave: block by block, the planes of lane `k` are those of block `k` of `DIN`. -/
theorem encode_then_decode {s : State} (hinv : s.Inv) (hl : s.cfg.level = .unitLevel) (hc : s.LegalCount) :
    ∃ t, execAll [.encode, .decode] s = .next t ∧
      ∀ a, a < 16 * s.count.toNat → Memory.read t.dout a = Memory.read s.din a := by
  obtain ⟨_, _, _, _, _, _, hdout, _⟩ := hinv
  let p := encodeBlocks s.cfg.W s.count.toNat s.din
  let t := ((s.setP p).setPvalid true).setErr .success
  have hdec := exec_decode_legal (s := t) (p := p) hl rfl rfl hc
  refine ⟨_, by simp only [execAll, exec_encode_legal hl hc]; rw [hdec], fun a ha => ?_⟩
  refine Memory.read_eq_of_block_eq (fun k hk => ?_) ha
  calc Memory.block (Memory.writeBytes s.dout 0 (decodedBytes s.count.toNat p)) k
      = Batch.block p k := block_writeBytes_decodedBytes p hdout hk
    _ = Memory.block s.din k := by rw [block_encodeBlocks _ _ (by omega), if_pos hk]

/-- `ENCODE` of what `DECODE` gave, the host having copied `DOUT` to `DIN`: lane `k` goes through block `k`. -/
theorem decode_then_encode {s : State} {p : Batch s.cfg.W} (hinv : s.Inv) (hl : s.cfg.level = .unitLevel)
    (hc : s.LegalCount) (hp : s.p = some p) :
    ∃ t u q, exec .decode s = .next t ∧ exec .encode (t.copyOut s.count.toNat) = .next u ∧ u.p = some q ∧
      ∀ k, k < s.cfg.W → Batch.block q k = if k < s.count.toNat then Batch.block p k else Vector.replicate 16 0 := by
  obtain ⟨hvalid, _, _, _, _, ⟨hdin, _⟩, hdout, _⟩ := hinv
  have hv : s.pvalid = true := hvalid.mpr (by rw [hp]; rfl)
  let m := Memory.writeBytes s.dout 0 (decodedBytes s.count.toNat p)
  let t := (s.setDout m).setErr .success
  refine ⟨t, _, _, exec_decode_legal hl hv hp hc, exec_encode_legal (s := t.copyOut s.count.toNat) hl hc, rfl,
    fun k hk => ?_⟩
  refine (block_encodeBlocks _ _ hk).trans (if_ctx_congr Iff.rfl (fun hn => ?_) fun _ => rfl)
  calc Memory.block (Memory.writeBytes s.din 0 (Memory.readBytes m 0 (16 * s.count.toNat))) k
      = Memory.block m k := Memory.block_writeBytes_readBytes m hdin hn
    _ = Batch.block p k := block_writeBytes_decodedBytes p hdout hn

/-! ## The obligation -/

/-- Settles O26: both operations move whole blocks, lane `k` against block `k`, so each undoes the other on the first
`COUNT` of them. -/
theorem codecRoundTrip : Obligations.CodecRoundTrip := fun _ hinv hl hc =>
  ⟨encode_then_decode hinv hl hc, fun _ hp => decode_then_encode hinv hl hc hp⟩

end Sys2Proof.Machine
end

section
/-! The family `41_sbox`: the circuits against their tables lane by lane (R107), and the S-box as the affine step of the
inverse in GF(2^8) (R100). -/

namespace Sys2Proof.Machine

/-! ## One lane of a circuit is the circuit on one byte -/

/-- What commutes with taking one lane out gives in each lane what it gives of the byte there at width 1 (R109). -/
theorem Slice.byte_lanewise {f : ∀ {v : Nat}, Slice v → Slice v} {w k : Nat}
    (hf : ∀ q : Slice w, f (q.map fun v => BitVec.ofBool (v.getLsbD k)) =
      (f q).map fun v => BitVec.ofBool (v.getLsbD k)) (q : Slice w) :
    Slice.byte (f q) k = Slice.byte (f (Slice.ofByte (Slice.byte q k))) 0 := by
  rw [← Slice.map_lane, hf, Slice.byte_map_lane]

theorem byte_sbox8 {w k : Nat} (hk : k < w) (q : Slice w) :
    Slice.byte (sbox8 q) k = Reference.S (Slice.byte q k) :=
  (Slice.byte_lanewise (sbox8_map (gateMap_lane hk)) q).trans (sboxByte_eq_table _)

theorem byte_invSbox8 {w k : Nat} (hk : k < w) (q : Slice w) :
    Slice.byte (invSbox8 q) k = Reference.invS (Slice.byte q k) :=
  (Slice.byte_lanewise (invSbox8_map (gateMap_lane hk)) q).trans (invSbox8_eq_table _)

/-- Slices with the same byte in every lane are equal. -/
theorem Slice.ext_byte {w : Nat} {a b : Slice w} (h : ∀ k, k < w → Slice.byte a k = Slice.byte b k) : a = b := by
  refine Vector.ext fun j hj => BitVec.eq_of_getLsbD_eq fun k hk => ?_
  rw [← Slice.getLsbD_byte a k j hj, h k hk, Slice.getLsbD_byte b k j hj]

/-! ## The tables of R101 and R104 undo each other -/

theorem invS_S : ∀ a : Byte, Reference.invS (Reference.S a) = a := by decide +kernel

/-- `S` has a left inverse, so it is injective on the 256 bytes, hence onto, and the left inverse is a right one. -/
theorem S_invS : ∀ a : Byte, Reference.S (Reference.invS a) = a :=
  Function.LeftInverse.rightInverse_of_surjective invS_S
    (Finite.surjective_of_injective (Function.LeftInverse.injective invS_S))

theorem invSbox8_sbox8 {w : Nat} (q : Slice w) : invSbox8 (sbox8 q) = q :=
  Slice.ext_byte fun k hk => by rw [byte_invSbox8 hk, byte_sbox8 hk, invS_S]

theorem sbox8_invSbox8 {w : Nat} (q : Slice w) : sbox8 (invSbox8 q) = q :=
  Slice.ext_byte fun k hk => by rw [byte_sbox8 hk, byte_invSbox8 hk, S_invS]

/-! ## The inverse in GF(2^8), read off `S` through `IA` -/

/-- `IA` on one byte, computed by its circuit at width 1 (R105). -/
def invAffineByte (x : Byte) : Byte := Slice.byte (invAffine8 (Slice.ofByte x)) 0

/-- The affine step of R100 undoes `IA`. -/
theorem affine_invAffineByte : ∀ x : Byte, Reference.affine (invAffineByte x) = x := by decide +kernel

/-- What is left of `S` when the affine step is taken away is the inverse in GF(2^8), for each of the 255 bytes not 0. -/
theorem times_invAffineByte_S : ∀ a : Byte, a ≠ 0 → Reference.times a (invAffineByte (Reference.S a)) = 1 := by
  decide +kernel

/-- At 0 there is no inverse, and `inv(0) = 0` is a convention of R100. -/
theorem S_zero_eq_affine_zero : Reference.S 0 = Reference.affine 0 := by decide

theorem sboxByte_eq_affine_of_invAffineByte (a : Byte) :
    sboxByte a = Reference.affine (invAffineByte (Reference.S a)) := by
  rw [affine_invAffineByte, sboxByte_eq_table]

/-! ## The obligations -/

/-- Settles O27: lane by lane the circuits are the 256-case checks on one byte, and the two tables undo each other. -/
theorem sboxCircuitsMeetTheTables : Obligations.SboxCircuitsMeetTheTables := fun _ q =>
  ⟨fun _ hk => byte_sbox8 hk q, fun _ hk => byte_invSbox8 hk q, invSbox8_sbox8 q, sbox8_invSbox8 q⟩

/-- Settles O28: the inverse of `a` is `IA` of `S(a)`, and `S(0)` is the affine step of 0. -/
theorem sboxIsAffineOfInverse : Obligations.SboxIsAffineOfInverse :=
  ⟨(sboxByte_eq_table 0).trans S_zero_eq_affine_zero,
    fun a ha => ⟨_, times_invAffineByte_S a ha, sboxByte_eq_affine_of_invAffineByte a⟩⟩

end Sys2Proof.Machine
end

section
/-! The family `42_round_ops`: the round operations that undo each other (R128) and those that commute (R129). -/

namespace Sys2Proof.Machine

/-! ## Batches by row and column -/

/-- The eight planes of the byte at state row `r`, column `c`, both modulo 4 (R22). -/
def Batch.sliceAt {w : Nat} (p : Batch w) (r c : Nat) : Slice w := Batch.slice p (position r c)

theorem Batch.ext_sliceAt {w : Nat} {p q : Batch w} (h : ∀ r c, Batch.sliceAt p r c = Batch.sliceAt q r c) : p = q :=
  Batch.ext_slices fun b => by simpa [Batch.sliceAt] using h (row b) (column b)

theorem Batch.sliceAt_congr {w : Nat} (p : Batch w) {r r' c c' : Nat} (hr : r % 4 = r' % 4) (hc : c % 4 = c' % 4) :
    Batch.sliceAt p r c = Batch.sliceAt p r' c' := by
  simp only [Batch.sliceAt, position, hr, hc]

@[simp] theorem Batch.sliceAt_add_four {w : Nat} (p : Batch w) (r c : Nat) :
    Batch.sliceAt p (r + 4) c = Batch.sliceAt p r c :=
  Batch.sliceAt_congr p (by omega) rfl

theorem Batch.sliceAt_ofSlices {w : Nat} (f : Fin 16 → Slice w) (r c : Nat) :
    Batch.sliceAt (Batch.ofSlices f) r c = f (position r c) :=
  Batch.slice_ofSlices f _

@[simp] theorem row_position (r c : Nat) : row (position r c) = r % 4 := by
  simp only [row, position]
  omega

@[simp] theorem column_position (r c : Nat) : column (position r c) = c % 4 := by
  simp only [column, position]
  omega

/-! ## Slices under XOR and `XT` -/

section
variable {w : Nat} (a b c d : Slice w)

theorem Slice.xor_comm : Slice.xor a b = Slice.xor b a :=
  Vector.ext fun j hj => by simp [BitVec.xor_comm]

theorem Slice.xor_assoc : Slice.xor (Slice.xor a b) c = Slice.xor a (Slice.xor b c) :=
  Vector.ext fun j hj => by simp [BitVec.xor_assoc]

theorem Slice.xor_left_comm : Slice.xor a (Slice.xor b c) = Slice.xor b (Slice.xor a c) := by
  rw [← Slice.xor_assoc, Slice.xor_comm a b, Slice.xor_assoc]

@[simp] theorem Slice.xor_self_xor : Slice.xor a (Slice.xor a b) = b :=
  Vector.ext fun j hj => by simp

@[simp] theorem Slice.xor_xor_self : Slice.xor a (Slice.xor b b) = a :=
  Vector.ext fun j hj => by simp

/-- `XT` is linear: it is made of XORs and a renaming of planes (R122). -/
theorem xt_xor : xt (Slice.xor a b) = Slice.xor (xt a) (xt b) := by
  have swap (x y z t : Plane w) : x ^^^ y ^^^ (z ^^^ t) = x ^^^ z ^^^ (y ^^^ t) := by ac_rfl
  refine Slice.ext fun j => ?_
  fin_cases j <;> simp [xt, swap]

/-! ## The matrix of `MIXCOLUMNS`

By linearity of `XT`, products of the matrices of R125 and R126 are products of polynomials in `XT` over GF(2), and none
of them needs a reduction: the matrix `M` of R125 has `M^4 = 1`, and the matrix of R126 is `M^3`. Each product below
multiplies out by `xt_xor`; sorting the terms brings equal ones together, and they cancel in pairs. -/

/-- `2•a ^ 3•b ^ c ^ d`, a byte position of a mixed column (R125). -/
def mixByte : Slice w := Slice.xor (Slice.xor (Slice.xor (xt (Slice.xor a b)) b) c) d

/-- `5•a ^ 4•c`, a byte position of a column mixed twice. -/
def mixTwiceByte : Slice w := Slice.xor (Slice.xor (xt (xt a)) a) (xt (xt c))

theorem mixByte_mixByte :
    mixByte (mixByte a b c d) (mixByte b c d a) (mixByte c d a b) (mixByte d a b c) = mixTwiceByte a c := by
  simp only [mixByte, mixTwiceByte, xt_xor, Slice.xor_comm, Slice.xor_left_comm, Slice.xor_self_xor]

theorem mixTwiceByte_mixTwiceByte : mixTwiceByte (mixTwiceByte a c) (mixTwiceByte c a) = a := by
  simp only [mixTwiceByte, xt_xor, Slice.xor_comm, Slice.xor_left_comm, Slice.xor_self_xor, Slice.xor_xor_self]

theorem mixByte_mixTwiceByte :
    mixByte (mixTwiceByte a c) (mixTwiceByte b d) (mixTwiceByte c a) (mixTwiceByte d b) =
      Slice.xor (Slice.xor (Slice.xor (mul14 a) (mul11 b)) (mul13 c)) (mul9 d) := by
  simp only [mixByte, mixTwiceByte, mul14, mul11, mul13, mul9, xt_xor, Slice.xor_comm, Slice.xor_left_comm,
    Slice.xor_self_xor]

end

/-! ## What each operation puts at row `r`, column `c` -/

section
variable {w : Nat} (p : Batch w) (r c : Nat)

@[simp] theorem sliceAt_subBytes : Batch.sliceAt (subBytes p) r c = sbox8 (Batch.sliceAt p r c) := by
  simp only [subBytes, Batch.sliceAt_ofSlices, Batch.getElem_slices_fin]
  rfl

@[simp] theorem sliceAt_invSubBytes : Batch.sliceAt (invSubBytes p) r c = invSbox8 (Batch.sliceAt p r c) := by
  simp only [invSubBytes, Batch.sliceAt_ofSlices, Batch.getElem_slices_fin]
  rfl

@[simp] theorem sliceAt_shiftRows : Batch.sliceAt (shiftRows p) r c = Batch.sliceAt p r (c + r) := by
  simp only [shiftRows, Batch.sliceAt_ofSlices, Batch.getElem_slices_fin, row_position, column_position]
  exact Batch.sliceAt_congr p (by omega) (by omega)

/-- `c - r` modulo 4 is `c + 3r`. -/
@[simp] theorem sliceAt_invShiftRows : Batch.sliceAt (invShiftRows p) r c = Batch.sliceAt p r (c + 3 * r) := by
  simp only [invShiftRows, Batch.sliceAt_ofSlices, Batch.getElem_slices_fin, row_position, column_position]
  exact Batch.sliceAt_congr p (by omega) (by omega)

/-- The other bytes of a column are read at `row b + i` of its own place `b`. -/
theorem slice_row_add (i : Nat) :
    Batch.slice p (position (row (position r c) + i) (column (position r c))) = Batch.sliceAt p (r + i) c := by
  rw [row_position, column_position]
  exact Batch.sliceAt_congr p (by omega) (by omega)

theorem sliceAt_mixColumns : Batch.sliceAt (mixColumns p) r c =
    mixByte (Batch.sliceAt p r c) (Batch.sliceAt p (r + 1) c) (Batch.sliceAt p (r + 2) c)
      (Batch.sliceAt p (r + 3) c) := by
  simp only [mixColumns, Batch.sliceAt_ofSlices, Batch.getElem_slices_fin, slice_row_add]
  rfl

theorem sliceAt_invMixColumns : Batch.sliceAt (invMixColumns p) r c =
    Slice.xor (Slice.xor (Slice.xor (mul14 (Batch.sliceAt p r c)) (mul11 (Batch.sliceAt p (r + 1) c)))
      (mul13 (Batch.sliceAt p (r + 2) c))) (mul9 (Batch.sliceAt p (r + 3) c)) := by
  simp only [invMixColumns, Batch.sliceAt_ofSlices, Batch.getElem_slices_fin, slice_row_add]
  rfl

end

/-! ## The inverse pairs on batches -/

section
variable {w : Nat} (p : Batch w)

theorem invShiftRows_shiftRows : invShiftRows (shiftRows p) = p :=
  Batch.ext_sliceAt fun r c => by
    rw [sliceAt_invShiftRows, sliceAt_shiftRows]
    exact Batch.sliceAt_congr p rfl (by omega)

theorem shiftRows_invShiftRows : shiftRows (invShiftRows p) = p :=
  Batch.ext_sliceAt fun r c => by
    rw [sliceAt_shiftRows, sliceAt_invShiftRows]
    exact Batch.sliceAt_congr p rfl (by omega)

theorem sliceAt_mixColumns_mixColumns (r c : Nat) : Batch.sliceAt (mixColumns (mixColumns p)) r c =
    mixTwiceByte (Batch.sliceAt p r c) (Batch.sliceAt p (r + 2) c) := by
  simp [sliceAt_mixColumns, mixByte_mixByte]

theorem mixColumns_four_times : mixColumns (mixColumns (mixColumns (mixColumns p))) = p :=
  Batch.ext_sliceAt fun r c => by
    simp [sliceAt_mixColumns_mixColumns, mixTwiceByte_mixTwiceByte]

theorem invMixColumns_eq_mixColumns_three_times : invMixColumns p = mixColumns (mixColumns (mixColumns p)) :=
  Batch.ext_sliceAt fun r c => by
    rw [sliceAt_invMixColumns, ← mixByte_mixTwiceByte, sliceAt_mixColumns]
    simp [sliceAt_mixColumns_mixColumns]

theorem invMixColumns_mixColumns : invMixColumns (mixColumns p) = p := by
  rw [invMixColumns_eq_mixColumns_three_times, mixColumns_four_times]

theorem mixColumns_invMixColumns : mixColumns (invMixColumns p) = p := by
  rw [invMixColumns_eq_mixColumns_three_times, mixColumns_four_times]

theorem addRoundKey_addRoundKey (key : Batch w) : addRoundKey key (addRoundKey key p) = p :=
  Vector.ext fun i hi => by simp [addRoundKey]

theorem shiftRows_subBytes : shiftRows (subBytes p) = subBytes (shiftRows p) :=
  Batch.ext_sliceAt fun r c => by simp

theorem invShiftRows_invSubBytes : invShiftRows (invSubBytes p) = invSubBytes (invShiftRows p) :=
  Batch.ext_sliceAt fun r c => by simp

end

/-! ## Two transformations one after the other -/

theorem State.setP_self {s : State} {p : Batch s.cfg.W} (hp : s.p = some p) : s.setP p = s := by
  rw [State.setP, ← hp]

theorem State.Inv.roundKeyPlanes_some {s : State} (h : s.Inv) (hk : s.kvalid = true) {rk : Nat}
    (hle : rk ≤ s.nr.toNat) : ∃ key, s.roundKeyPlanes rk = some key := by
  obtain ⟨_, hcount, ⟨hkeys, _⟩, _⟩ := h
  rw [State.RoundCountOk, if_pos hk] at hcount
  have hlt : rk < 15 := by
    have hnr : s.nr.toNat ≤ 14 := by rcases hcount with e | e | e <;> simp [e]
    omega
  have hsome : s.rk[rk].isSome = true := (hkeys ⟨rk, hlt⟩).mpr ⟨hk, hle⟩
  rw [State.roundKeyPlanes, Vector.getElem?_eq_getElem hlt]
  exact Option.isSome_iff_exists.mp hsome

theorem runUnit_addRoundKey {s : State} {rk : Nat} {p key : Batch s.cfg.W} (hv : s.pvalid = true) (hp : s.p = some p)
    (hk : s.kvalid = true) (hle : rk ≤ s.nr.toNat) (hkey : s.roundKeyPlanes rk = some key) :
    runUnit (.addRoundKey rk) s = transform s (addRoundKey key) := by
  rw [runUnit, unitAddRoundKey, withBatch_some hv hp, withRoundKey_some hk hle hkey]

theorem transform_noBatch {s : State} (h : s.pvalid = false ∨ s.p = none) (f : Batch s.cfg.W → Batch s.cfg.W) :
    transform s f = .refused .noBatch := by
  rcases transform_cases s f with ⟨b, hv, hp, _⟩ | ⟨_, e⟩
  · simp [hv, hp] at h
  · exact e

/-- Two unit operations that transform `P` are together one transformation by the composition, refusals included. -/
theorem execAll_transform_transform {s : State} {u v : UnitOp} {f g : Batch s.cfg.W → Batch s.cfg.W}
    (hu : runUnit u s = transform s f)
    (hv : ∀ q : Batch s.cfg.W, runUnit v ((s.setP q).setErr .success) = transform ((s.setP q).setErr .success) g) :
    execAll [u.toInstr, v.toInstr] s = atUnitLevel s (transform s fun p => g (f p)) := by
  simp only [execAll, exec_toInstr_eq_atUnitLevel u s, hu]
  rcases atUnitLevel_cases s (transform s f) with ⟨hl, e⟩ | ⟨hl, e⟩ <;> rw [e]
  · rw [atUnitLevel_unit hl]
    rcases transform_cases s f with ⟨p, hpv, hp, e⟩ | ⟨hn, e⟩ <;> rw [e]
    · let t := (s.setP (f p)).setErr .success
      have hsecond : exec v.toInstr t = .next ((s.setP (g (f p))).setErr .success) :=
        (exec_toInstr (s := t) hl v).trans ((hv _).trans (transform_some (s := t) hpv rfl g))
      simp only [t, hsecond, transform_some hpv hp]
    · rw [transform_noBatch hn]
  · rw [atUnitLevel_public hl]

/-- Two unit operations whose transformations of `P` undo each other leave the state as it was, with `ERR = 0`. -/
theorem execAll_inverse_pair {s : State} {p : Batch s.cfg.W} {u v : UnitOp} {f g : Batch s.cfg.W → Batch s.cfg.W}
    (hl : s.cfg.level = .unitLevel) (hpv : s.pvalid = true) (hp : s.p = some p) (hu : runUnit u s = transform s f)
    (hv : ∀ q : Batch s.cfg.W, runUnit v ((s.setP q).setErr .success) = transform ((s.setP q).setErr .success) g)
    (hfg : g (f p) = p) : execAll [u.toInstr, v.toInstr] s = .next (s.setErr .success) := by
  rw [execAll_transform_transform hu hv, atUnitLevel_unit hl, transform_some hpv hp, hfg, State.setP_self hp]

/-- Two unit operations whose transformations of `P` commute answer the same in either order. -/
theorem execAll_pair_comm {u v : UnitOp} (f g : ∀ {w : Nat}, Batch w → Batch w)
    (hu : ∀ s, runUnit u s = transform s f) (hv : ∀ s, runUnit v s = transform s g)
    (hfg : ∀ {w : Nat} (p : Batch w), g (f p) = f (g p)) (s : State) :
    execAll [u.toInstr, v.toInstr] s = execAll [v.toInstr, u.toInstr] s :=
  calc execAll [u.toInstr, v.toInstr] s
      = atUnitLevel s (transform s fun p => g (f p)) := execAll_transform_transform (hu s) fun _ => hv _
    _ = atUnitLevel s (transform s fun p => f (g p)) := by simp only [hfg]
    _ = execAll [v.toInstr, u.toInstr] s := (execAll_transform_transform (hv s) fun _ => hu _).symm

/-- The second `ADDROUNDKEY rk` reads the same round key: the first writes `P` and `ERR` only. -/
theorem execAll_addroundkey_twice {s : State} {p : Batch s.cfg.W} {rk : Nat} (hinv : s.Inv)
    (hl : s.cfg.level = .unitLevel) (hpv : s.pvalid = true) (hp : s.p = some p) (hk : s.kvalid = true)
    (hle : rk ≤ s.nr.toNat) : execAll [.addroundkey rk, .addroundkey rk] s = .next (s.setErr .success) := by
  obtain ⟨key, hkey⟩ := hinv.roundKeyPlanes_some hk hle
  have hfirst := runUnit_addRoundKey hpv hp hk hle hkey
  have hsecond (q : Batch s.cfg.W) :=
    runUnit_addRoundKey (s := (s.setP q).setErr .success) (p := q) hpv rfl hk hle hkey
  exact execAll_inverse_pair (u := .addRoundKey rk) (v := .addRoundKey rk) hl hpv hp hfirst hsecond
    (addRoundKey_addRoundKey p key)

/-! ## The obligations -/

/-- Settles O37: each pair is one transformation of `P`, and that transformation is the identity. -/
theorem inverseRoundOperationsRestoreP : Obligations.InverseRoundOperationsRestoreP := fun _ hinv hl hpv =>
  have ⟨p, hp⟩ := hinv.p_some hpv
  ⟨execAll_inverse_pair (u := .shiftRows) (v := .invShiftRows) hl hpv hp rfl (fun _ => rfl)
      (invShiftRows_shiftRows p),
    execAll_inverse_pair (u := .invShiftRows) (v := .shiftRows) hl hpv hp rfl (fun _ => rfl)
      (shiftRows_invShiftRows p),
    execAll_inverse_pair (u := .mixColumns) (v := .invMixColumns) hl hpv hp rfl (fun _ => rfl)
      (invMixColumns_mixColumns p),
    execAll_inverse_pair (u := .invMixColumns) (v := .mixColumns) hl hpv hp rfl (fun _ => rfl)
      (mixColumns_invMixColumns p),
    fun _ hk hle => execAll_addroundkey_twice hinv hl hpv hp hk hle⟩

/-- Settles O38: moving the byte positions and substituting each of them commute, so both orders are the same
transformation of `P`, or the same refusal. -/
theorem shiftRowsAndSubBytesCommute : Obligations.ShiftRowsAndSubBytesCommute := fun s =>
  ⟨execAll_pair_comm (u := .shiftRows) (v := .subBytes) shiftRows subBytes (fun _ => rfl) (fun _ => rfl)
      (fun p => (shiftRows_subBytes p).symm) s,
    execAll_pair_comm (u := .invShiftRows) (v := .invSubBytes) invShiftRows invSubBytes (fun _ => rfl) (fun _ => rfl)
      (fun p => (invShiftRows_invSubBytes p).symm) s⟩

end Sys2Proof.Machine
end

section
/-! The family `43_key_schedule`: what `EXPAND` answers to a key length it does not accept (R146). -/

namespace Sys2Proof.Machine

theorem goodKeyLength_eq_false_iff (s : State) : goodKeyLength s.klen = false ↔ ¬s.LegalKeyLength := by
  rw [← goodKeyLength_iff, Bool.not_eq_true]

/-! ## The obligation -/

/-- Settles O14: `EXPAND` tests `KLEN` before it writes anything, so the failing branch records the error alone. -/
theorem expandRejectsOtherKeyLengths : Obligations.ExpandRejectsOtherKeyLengths := fun s h =>
  exec_expand_bad ((goodKeyLength_eq_false_iff s).mpr h)

end Sys2Proof.Machine
end

section
/-! The family `44_orchestrator`: a whole command as its list issued entry by entry (R164), the two commands undoing each
other (R165), and blocks that come out of a batch as they would alone (R166).

A command loads the batch, transforms it by the entries between the codec's two, and extracts the blocks. What those
entries do to the batch is a function at every width, with the round keys as blocks, and it commutes with taking one lane
out: so block `k` of the result is what the same function makes of block `k` on a core of one lane. -/

namespace Sys2Proof.Machine

/-! ## A block in every lane, and one lane of a batch -/

/-- The batch that holds the block `a` in every lane. -/
def Batch.ofBlock (w : Nat) (a : Reference.Block) : Batch w := Batch.replicated w fun b => a[b]

theorem Batch.getLsbD_getElem_block {w : Nat} (p : Batch w) (k i : Nat) (h : i < 128) :
    ((Batch.block p k)[i / 8]'(by omega)).getLsbD (i % 8) = p[i].getLsbD k := by
  have hi : 8 * (i / 8) + i % 8 = i := by omega
  rw [Batch.block, getElem_tabulate, Batch.getLsbD_byte _ _ _ _ (by omega)]
  simp only [hi]

theorem Batch.getElem_ofBlock (w : Nat) (a : Reference.Block) (i : Nat) (h : i < 128) :
    (Batch.ofBlock w a)[i] = rep w ((a[i / 8]'(by omega)).getLsbD (i % 8)) :=
  Batch.getElem_replicated w _ i h

theorem Batch.block_ofBlock {w k : Nat} (hk : k < w) (a : Reference.Block) :
    Batch.block (Batch.ofBlock w a) k = a := by
  refine Vector.ext fun b hb => BitVec.eq_of_getLsbD_eq fun j hj => ?_
  have hdiv : (8 * b + j) / 8 = b := by omega
  have hmod : (8 * b + j) % 8 = j := by omega
  rw [Batch.block, getElem_tabulate, Batch.getLsbD_byte _ _ _ _ hj, Batch.getElem_ofBlock _ _ _ (by omega),
    getLsbD_rep]
  simp only [hdiv, hmod, hk, decide_true, Bool.true_and]

/-- A batch with all lanes alike is the block of its lane 0 in every lane. -/
theorem Batch.ofBlock_block_of_replicated {w : Nat} {p : Batch w} (hw : 0 < w) (h : Replicated p) :
    Batch.ofBlock w (Batch.block p 0) = p := by
  refine Vector.ext fun i hi => ?_
  rw [Batch.getElem_ofBlock _ _ _ hi, Batch.getLsbD_getElem_block _ _ _ hi]
  have hplane : p[i] = 0 ∨ p[i] = BitVec.allOnes w := h ⟨i, hi⟩
  rcases hplane with e | e <;> simp [e, rep, hw]

/-- One lane is always alike. -/
theorem replicated_one (p : Batch 1) : Replicated p := fun i => BitVec.eq_zero_or_eq_one p[i]

/-- Lane `k` of a batch, as a batch of width 1, is the block in that lane. -/
theorem Batch.map_lane {w : Nat} (p : Batch w) (k : Nat) :
    p.map (fun v => BitVec.ofBool (v.getLsbD k)) = Batch.ofBlock 1 (Batch.block p k) := by
  refine Vector.ext fun i hi => ?_
  rw [Vector.getElem_map, Batch.getElem_ofBlock _ _ _ hi, Batch.getLsbD_getElem_block _ _ _ hi]
  cases p[i].getLsbD k <;> rfl

/-! ## The transformations commute with gate-wise maps -/

section
variable {w v : Nat} {h : BitVec w → BitVec v} (H : GateMap w v h) (p : Batch w)

@[simp] theorem Batch.sliceAt_map (h : BitVec w → BitVec v) (r c : Nat) :
    Batch.sliceAt (p.map h) r c = (Batch.sliceAt p r c).map h :=
  Vector.ext fun j hj => by simp [Batch.sliceAt]

include H

theorem GateMap.rep (b : Bool) : h (Machine.rep w b) = Machine.rep v b := by
  have hzero : h 0#w = 0#v := by simpa using H.xor 0#w 0#w
  cases b with
  | false => exact hzero
  | true => simpa [Machine.rep, hzero] using H.not 0#w

theorem GateMap.ofBlock (a : Reference.Block) : (Batch.ofBlock w a).map h = Batch.ofBlock v a :=
  Vector.ext fun i hi => by rw [Vector.getElem_map, Batch.getElem_ofBlock, Batch.getElem_ofBlock, H.rep]

theorem subBytes_map : subBytes (p.map h) = (subBytes p).map h :=
  Batch.ext_sliceAt fun r c => by simp [sbox8_map H]

theorem invSubBytes_map : invSubBytes (p.map h) = (invSubBytes p).map h :=
  Batch.ext_sliceAt fun r c => by simp [invSbox8_map H]

theorem mixColumns_map : mixColumns (p.map h) = (mixColumns p).map h :=
  Batch.ext_sliceAt fun r c => by simp [sliceAt_mixColumns, mixByte, H.xor_slice, ← H.xt]

theorem invMixColumns_map : invMixColumns (p.map h) = (invMixColumns p).map h := by
  simp only [invMixColumns_eq_mixColumns_three_times, mixColumns_map H]

theorem addRoundKey_map (key : Batch w) : addRoundKey (key.map h) (p.map h) = (addRoundKey key p).map h :=
  Vector.ext fun i hi => by simp [addRoundKey, H.xor]

end

section
variable {w v : Nat} (h : BitVec w → BitVec v) (p : Batch w)

theorem shiftRows_map : shiftRows (p.map h) = (shiftRows p).map h :=
  Batch.ext_sliceAt fun r c => by simp

theorem invShiftRows_map : invShiftRows (p.map h) = (invShiftRows p).map h :=
  Batch.ext_sliceAt fun r c => by simp

end

/-! ## What a list of unit operations does to the batch -/

/-- What a unit operation makes of the batch with round keys `key 0`, `key 1` and so on; the codec's two transform
nothing. -/
def applyUnit {w : Nat} (key : Nat → Reference.Block) : UnitOp → Batch w → Batch w
  | .encode, p | .decode, p => p
  | .subBytes, p => subBytes p
  | .invSubBytes, p => invSubBytes p
  | .shiftRows, p => shiftRows p
  | .invShiftRows, p => invShiftRows p
  | .mixColumns, p => mixColumns p
  | .invMixColumns, p => invMixColumns p
  | .addRoundKey rk, p => addRoundKey (Batch.ofBlock w (key rk)) p

/-- The unit operations of a list, the first one first. -/
def applyAll {w : Nat} (key : Nat → Reference.Block) : List UnitOp → Batch w → Batch w
  | [], p => p
  | u :: us, p => applyAll key us (applyUnit key u p)

/-- The unit operations of a list on one block: a batch of one, on a core of one lane. -/
def applyBlock (key : Nat → Reference.Block) (us : List UnitOp) (a : Reference.Block) : Reference.Block :=
  Batch.block (applyAll key us (Batch.ofBlock 1 a)) 0

/-- A unit operation transforms `P` and names no round key above `nr`. -/
def UnitOp.Transforms (nr : Nat) : UnitOp → Prop
  | .encode | .decode => False
  | .subBytes | .invSubBytes | .shiftRows | .invShiftRows | .mixColumns | .invMixColumns => True
  | .addRoundKey rk => rk ≤ nr

section
variable {w v : Nat} (key : Nat → Reference.Block)

theorem applyAll_append (us vs : List UnitOp) (p : Batch w) :
    applyAll key (us ++ vs) p = applyAll key vs (applyAll key us p) := by
  induction us generalizing p with
  | nil => rfl
  | cons u us ih => exact ih _

theorem applyUnit_map {h : BitVec w → BitVec v} (H : GateMap w v h) (u : UnitOp) (p : Batch w) :
    applyUnit key u (p.map h) = (applyUnit key u p).map h := by
  cases u with
  | encode | decode => rfl
  | subBytes => exact subBytes_map H p
  | invSubBytes => exact invSubBytes_map H p
  | shiftRows => exact shiftRows_map h p
  | invShiftRows => exact invShiftRows_map h p
  | mixColumns => exact mixColumns_map H p
  | invMixColumns => exact invMixColumns_map H p
  | addRoundKey rk => rw [applyUnit, applyUnit, ← addRoundKey_map H, H.ofBlock]

theorem applyAll_map {h : BitVec w → BitVec v} (H : GateMap w v h) (us : List UnitOp) (p : Batch w) :
    applyAll key us (p.map h) = (applyAll key us p).map h := by
  induction us generalizing p with
  | nil => rfl
  | cons u us ih => rw [applyAll, applyAll, applyUnit_map key H, ih]

/-- Every lane goes its own way: block `k` of the result is what a core of one lane makes of block `k` (R109, R130). -/
theorem block_applyAll {k : Nat} (hk : k < w) (us : List UnitOp) (p : Batch w) :
    Batch.block (applyAll key us p) k = applyBlock key us (Batch.block p k) := by
  rw [applyBlock, ← Batch.map_lane, applyAll_map key (gateMap_lane hk), Batch.map_lane, Batch.block_ofBlock Nat.one_pos]

/-- Only the round keys up to `nr` have a part in it. -/
theorem applyAll_congr {key' : Nat → Reference.Block} {nr : Nat} {us : List UnitOp}
    (hus : ∀ u ∈ us, u.Transforms nr) (hkey : ∀ rk, rk ≤ nr → key' rk = key rk) (p : Batch w) :
    applyAll key' us p = applyAll key us p := by
  induction us generalizing p with
  | nil => rfl
  | cons u us ih =>
    obtain ⟨hu, hus⟩ := List.forall_mem_cons.mp hus
    have happly : applyUnit key' u p = applyUnit key u p := by
      cases u with
      | addRoundKey rk => rw [applyUnit, applyUnit, hkey rk hu]
      | _ => rfl
    rw [applyAll, applyAll, happly, ih hus]

end

/-! ## Undoing a list of unit operations -/

/-- The unit operation that undoes another (R128); the codec's two, which transform nothing, stand for themselves. -/
def UnitOp.inverse : UnitOp → UnitOp
  | .encode => .encode
  | .decode => .decode
  | .subBytes => .invSubBytes
  | .invSubBytes => .subBytes
  | .shiftRows => .invShiftRows
  | .invShiftRows => .shiftRows
  | .mixColumns => .invMixColumns
  | .invMixColumns => .mixColumns
  | .addRoundKey rk => .addRoundKey rk

/-- The inverses of the unit operations of a list, the last one first. -/
def undo (us : List UnitOp) : List UnitOp := (us.map UnitOp.inverse).reverse

theorem UnitOp.inverse_inverse (u : UnitOp) : u.inverse.inverse = u := by cases u <;> rfl

theorem UnitOp.Transforms.inverse {nr : Nat} {u : UnitOp} (h : u.Transforms nr) : u.inverse.Transforms nr := by
  cases u <;> exact h

theorem length_undo (us : List UnitOp) : (undo us).length = us.length := by simp [undo]

theorem undo_undo (us : List UnitOp) : undo (undo us) = us := by
  simp [undo, Function.comp_def, UnitOp.inverse_inverse]

theorem transforms_of_mem_undo {nr : Nat} {us : List UnitOp} (hus : ∀ u ∈ us, u.Transforms nr) :
    ∀ u ∈ undo us, u.Transforms nr := by
  intro u hu
  obtain ⟨v, hv, rfl⟩ : ∃ v ∈ us, v.inverse = u := by simpa [undo] using hu
  exact (hus v hv).inverse

theorem invSubBytes_subBytes {w : Nat} (p : Batch w) : invSubBytes (subBytes p) = p :=
  Batch.ext_sliceAt fun r c => by simp [invSbox8_sbox8]

theorem subBytes_invSubBytes {w : Nat} (p : Batch w) : subBytes (invSubBytes p) = p :=
  Batch.ext_sliceAt fun r c => by simp [sbox8_invSbox8]

theorem applyUnit_inverse_applyUnit {w : Nat} (key : Nat → Reference.Block) (u : UnitOp) (p : Batch w) :
    applyUnit key u.inverse (applyUnit key u p) = p := by
  cases u with
  | encode | decode => rfl
  | subBytes => exact invSubBytes_subBytes p
  | invSubBytes => exact subBytes_invSubBytes p
  | shiftRows => exact invShiftRows_shiftRows p
  | invShiftRows => exact shiftRows_invShiftRows p
  | mixColumns => exact invMixColumns_mixColumns p
  | invMixColumns => exact mixColumns_invMixColumns p
  | addRoundKey rk => exact addRoundKey_addRoundKey p _

theorem applyAll_undo {w : Nat} (key : Nat → Reference.Block) (us : List UnitOp) (p : Batch w) :
    applyAll key (undo us) (applyAll key us p) = p := by
  induction us generalizing p with
  | nil => rfl
  | cons u us ih =>
    have hcons : undo (u :: us) = undo us ++ [u.inverse] := by simp [undo]
    simp only [hcons, applyAll_append, applyAll, ih, applyUnit_inverse_applyUnit]

theorem applyBlock_undo (key : Nat → Reference.Block) (us : List UnitOp) (a : Reference.Block) :
    applyBlock key (undo us) (applyBlock key us a) = a := by
  rw [applyBlock, applyBlock, Batch.ofBlock_block_of_replicated Nat.one_pos (replicated_one _), applyAll_undo,
    Batch.block_ofBlock Nat.one_pos]

/-! ## The two expansion lists -/

/-- A list of unit operations between `ENCODE` and `DECODE`. -/
def betweenCodec (us : List UnitOp) : List UnitOp := .encode :: (us ++ [.decode])

/-- The entries of `ENCRYPT` between the codec's two (R162). -/
def encryptMiddle (nr : Nat) : List UnitOp :=
  .addRoundKey 0 :: ((List.range (nr - 1)).flatMap (fun i => encryptRound (i + 1)) ++
    [.subBytes, .shiftRows, .addRoundKey nr])

theorem encryptList_eq (nr : Nat) : encryptList nr = betweenCodec (encryptMiddle nr) := by
  simp [encryptList, betweenCodec, encryptMiddle]

/-- The mirrored rounds, and the first two entries of the final one, are the full rounds undone, read from two entries
further on. -/
theorem flatMap_decryptRound (n : Nat) :
    (List.range n).flatMap (fun i => decryptRound (n - i)) ++ [.invShiftRows, .invSubBytes] =
      [.invShiftRows, .invSubBytes] ++ undo ((List.range n).flatMap fun i => encryptRound (i + 1)) := by
  induction n with
  | zero => rfl
  | succ n ih =>
    have hfirst : (List.range (n + 1)).flatMap (fun i => decryptRound (n + 1 - i)) =
        decryptRound (n + 1) ++ (List.range n).flatMap fun i => decryptRound (n - i) := by
      simp [List.range_succ_eq_map, List.flatMap_map]
    have hlast : undo ((List.range (n + 1)).flatMap fun i => encryptRound (i + 1)) =
        undo (encryptRound (n + 1)) ++ undo ((List.range n).flatMap fun i => encryptRound (i + 1)) := by
      simp [undo, List.range_succ]
    rw [hfirst, List.append_assoc, ih, hlast]
    rfl

/-- `DECRYPT` undoes the entries of `ENCRYPT` one by one, the last one first (R163, R165). -/
theorem decryptList_eq (nr : Nat) : decryptList nr = betweenCodec (undo (encryptMiddle nr)) := by
  have hundo : undo (encryptMiddle nr) = .addRoundKey nr :: ([.invShiftRows, .invSubBytes] ++
      undo ((List.range (nr - 1)).flatMap fun i => encryptRound (i + 1)) ++ [.addRoundKey 0]) := by
    simp [undo, encryptMiddle, UnitOp.inverse]
  rw [hundo, ← flatMap_decryptRound]
  simp [decryptList, betweenCodec]

theorem transforms_of_mem_encryptMiddle (nr : Nat) : ∀ u ∈ encryptMiddle nr, u.Transforms nr := by
  have hround {i : Nat} (hi : i < nr - 1) : ∀ u ∈ encryptRound (i + 1), u.Transforms nr := by
    have hle : i + 1 ≤ nr := by omega
    simp [encryptRound, UnitOp.Transforms, hle]
  intro u hu
  simp only [encryptMiddle, List.mem_cons, List.mem_append, List.mem_flatMap, List.mem_range, List.not_mem_nil,
    or_false] at hu
  rcases hu with rfl | ⟨i, hi, hu⟩ | rfl | rfl | rfl
  · exact Nat.zero_le nr
  · exact hround hi u hu
  · exact trivial
  · exact trivial
  · exact Nat.le_refl nr

theorem length_encryptMiddle (nr : Nat) : (encryptMiddle nr).length = 4 * (nr - 1) + 4 := by
  simp only [encryptMiddle, encryptRound, List.length_cons, List.length_append, List.length_flatMap, List.length_nil,
    List.map_const', List.length_range, List.sum_replicate, smul_eq_mul]
  omega

/-! ## A command on the state -/

/-- What an accepted `ENCRYPT` or `DECRYPT` relies on; it holds of every state with the invariant, a schedule and a legal
`COUNT`. -/
structure State.Accepts (s : State) : Prop where
  kvalid : s.kvalid = true
  legalCount : s.LegalCount
  seq : s.seq = 0
  nr_le : s.nr.toNat ≤ 14
  roundKeys : ∀ rk, rk ≤ s.nr.toNat → s.roundKeyPlanes rk = some (Batch.ofBlock s.cfg.W (s.roundKey rk))

theorem State.Inv.roundKeyPlanes_eq_ofBlock {s : State} (h : s.Inv) (hk : s.kvalid = true) {rk : Nat}
    (hle : rk ≤ s.nr.toNat) : s.roundKeyPlanes rk = some (Batch.ofBlock s.cfg.W (s.roundKey rk)) := by
  obtain ⟨key, hkey⟩ := h.roundKeyPlanes_some hk hle
  obtain ⟨_, _, ⟨_, hrep⟩, _⟩ := h
  have hreplicated : Replicated key := by
    have hjoin : s.rk[rk]? = some (some key) := Option.join_eq_some_iff.mp hkey
    obtain ⟨hlt, hget⟩ := Vector.getElem?_eq_some_iff.mp hjoin
    have hrk := hrep ⟨rk, hlt⟩
    rw [Fin.getElem_fin, hget, keyReplicated_some] at hrk
    exact hrk
  rw [State.roundKey, hkey, keyBlock, Batch.ofBlock_block_of_replicated s.cfg.W_pos hreplicated]

theorem State.Inv.accepts {s : State} (h : s.Inv) (hk : s.kvalid = true) (hc : s.LegalCount) : s.Accepts := by
  have hkeys {rk : Nat} := h.roundKeyPlanes_eq_ofBlock hk (rk := rk)
  obtain ⟨_, hcount, _, hseq, _⟩ := h
  rw [State.RoundCountOk, if_pos hk] at hcount
  have hnr : s.nr.toNat ≤ 14 := by rcases hcount with e | e | e <;> simp [e]
  exact ⟨hk, hc, hseq, hnr, fun _ => hkeys⟩

/-- `P` holds the batch `p` and the last operation succeeded. -/
def State.loaded (s : State) (p : Batch s.cfg.W) : State := ((s.setP p).setPvalid true).setErr .success

/-- The batch that the entries `us` make of the first `COUNT` blocks of `DIN`. -/
def State.transformed (s : State) (us : List UnitOp) : Batch s.cfg.W :=
  applyAll s.roundKey us (encodeBlocks s.cfg.W s.count.toNat s.din)

/-- The state a command leaves whose entries between the codec's two are `us`. -/
def State.afterCommand (s : State) (us : List UnitOp) : State :=
  (s.loaded (s.transformed us)).setDout
    (Memory.writeBytes s.dout 0 (decodedBytes s.count.toNat (s.transformed us)))

section
variable {s : State} {us : List UnitOp} (hs : s.Accepts) (hus : ∀ u ∈ us, u.Transforms s.nr.toNat)
include hs

theorem runUnit_loaded {u : UnitOp} (hu : u.Transforms s.nr.toNat) (p : Batch s.cfg.W) :
    runUnit u (s.loaded p) = .next (s.loaded (applyUnit s.roundKey u p)) := by
  have transformed (f : Batch s.cfg.W → Batch s.cfg.W) : transform (s.loaded p) f = .next (s.loaded (f p)) :=
    transform_some (s := s.loaded p) rfl rfl f
  cases u with
  | encode | decode => cases hu
  | addRoundKey rk =>
    have hkey : (s.loaded p).roundKeyPlanes rk = _ := hs.roundKeys rk hu
    exact (runUnit_addRoundKey (s := s.loaded p) rfl rfl hs.kvalid hu hkey).trans (transformed _)
  | subBytes | invSubBytes | shiftRows | invShiftRows | mixColumns | invMixColumns => exact transformed _

theorem runUnit_encode : runUnit .encode s = .next (s.loaded (encodeBlocks s.cfg.W s.count.toNat s.din)) := by
  rw [runUnit, unitEncode, withCount_legal hs.legalCount.1 hs.legalCount.2]
  rfl

theorem runUnit_decode_loaded (p : Batch s.cfg.W) : runUnit .decode (s.loaded p) =
    .next ((s.loaded p).setDout (Memory.writeBytes s.dout 0 (decodedBytes s.count.toNat p))) := by
  rw [runUnit, unitDecode, withBatch_some (s := s.loaded p) rfl rfl,
    withCount_legal (s := s.loaded p) hs.legalCount.1 hs.legalCount.2]
  rfl

include hus

theorem runAll_loaded (p : Batch s.cfg.W) :
    runAll us (s.loaded p) = .next (s.loaded (applyAll s.roundKey us p)) := by
  induction us generalizing p with
  | nil => rfl
  | cons u us ih =>
    obtain ⟨hu, hus⟩ := List.forall_mem_cons.mp hus
    rw [runAll, runUnit_loaded hs hu]
    exact ih hus _

theorem runAll_betweenCodec : runAll (betweenCodec us) s = .next (s.afterCommand us) := by
  simp only [betweenCodec, runAll, runUnit_encode hs, runAll_append, runAll_loaded hs hus, runUnit_decode_loaded hs]
  rfl

/-- The fold already ends with `ERR` and `SEQ` 0, which is all that the sequencer adds. -/
theorem command_eq_afterCommand (hlen : us.length < 62) :
    withSchedule s (withCount s fun _ => runExpansion (betweenCodec us) s) = .next (s.afterCommand us) := by
  have hlist : (betweenCodec us).length < 64 := by
    simp only [betweenCodec, List.length_cons, List.length_append, List.length_nil]
    omega
  rw [withSchedule_valid hs.kvalid, withCount_legal hs.legalCount.1 hs.legalCount.2, runExpansion_eq _ hlist s hs.seq,
    runAll_betweenCodec hs hus, mapNext, ← hs.seq]
  rfl

end

theorem exec_encrypt_accepted {s : State} (hs : s.Accepts) :
    exec .encrypt s = .next (s.afterCommand (encryptMiddle s.nr.toNat)) := by
  show withSchedule s (withCount s fun _ => runExpansion (encryptList s.nr.toNat) s) = _
  have hnr := hs.nr_le
  rw [encryptList_eq]
  exact command_eq_afterCommand hs (transforms_of_mem_encryptMiddle _) (by rw [length_encryptMiddle]; omega)

theorem exec_decrypt_accepted {s : State} (hs : s.Accepts) :
    exec .decrypt s = .next (s.afterCommand (undo (encryptMiddle s.nr.toNat))) := by
  show withSchedule s (withCount s fun _ => runExpansion (decryptList s.nr.toNat) s) = _
  have hnr := hs.nr_le
  rw [decryptList_eq]
  exact command_eq_afterCommand hs (transforms_of_mem_undo (transforms_of_mem_encryptMiddle _))
    (by rw [length_undo, length_encryptMiddle]; omega)

/-! ## The list issued entry by entry -/

/-- At the unit level the host can issue any list of unit operations itself. -/
theorem execAll_map_toInstr {s : State} (hl : s.cfg.level = .unitLevel) (us : List UnitOp) :
    execAll (us.map UnitOp.toInstr) s = runAll us s := by
  induction us generalizing s with
  | nil => rfl
  | cons u us ih =>
    rw [List.map_cons, execAll, runAll, exec_toInstr hl]
    rcases runUnit_answers u s with ⟨t, e, ⟨_, _, _, _, rfl⟩, _⟩ | ⟨r, _, e⟩ <;> rw [e]
    exact ih hl

/-! ## The blocks a command leaves -/

section
variable {s : State} {k : Nat}

/-- Block `k` of `DOUT` after a command is a function of the round keys and of block `k` of `DIN`, the same at every
width. -/
theorem block_dout_afterCommand (hs : s.Accepts) (hdout : Memory.wf s.dout = true) (hk : k < s.count.toNat)
    (us : List UnitOp) :
    Memory.block (s.afterCommand us).dout k = applyBlock s.roundKey us (Memory.block s.din k) := by
  have hlane : k < s.cfg.W := Nat.lt_of_lt_of_le hk hs.legalCount.2
  calc Memory.block (Memory.writeBytes s.dout 0 (decodedBytes s.count.toNat (s.transformed us))) k
      = Batch.block (s.transformed us) k := block_writeBytes_decodedBytes _ hdout hk
    _ = applyBlock s.roundKey us (Batch.block (encodeBlocks s.cfg.W s.count.toNat s.din) k) :=
        block_applyAll _ hlane us _
    _ = applyBlock s.roundKey us (Memory.block s.din k) := by rw [block_encodeBlocks _ _ hlane, if_pos hk]

/-- Neither a command nor the host's copy of `DOUT` writes what the next command relies on. -/
theorem State.Accepts.copyOut_afterCommand (hs : s.Accepts) (us : List UnitOp) (n : Nat) :
    ((s.afterCommand us).copyOut n).Accepts :=
  ⟨hs.kvalid, hs.legalCount, hs.seq, hs.nr_le, hs.roundKeys⟩

/-- A command, the host's copy of `DOUT` to `DIN`, and the command that undoes the first: the blocks of `DIN` are in
`DOUT`. -/
theorem read_dout_afterCommand_undo (hs : s.Accepts) (hdin : Memory.wf s.din = true) (hdout : Memory.wf s.dout = true)
    (us : List UnitOp) {a : Nat} (ha : a < 16 * s.count.toNat) :
    Memory.read (((s.afterCommand us).copyOut s.count.toNat).afterCommand (undo us)).dout a = Memory.read s.din a := by
  let t := (s.afterCommand us).copyOut s.count.toNat
  have ht : t.Accepts := hs.copyOut_afterCommand us _
  refine Memory.read_eq_of_block_eq (fun k hk => ?_) ha
  calc Memory.block (t.afterCommand (undo us)).dout k
      = applyBlock s.roundKey (undo us) (Memory.block t.din k) :=
        block_dout_afterCommand ht (Memory.wf_writeBytes _ _ hdout) hk _
    _ = applyBlock s.roundKey (undo us) (Memory.block (s.afterCommand us).dout k) :=
        congrArg _ (Memory.block_writeBytes_readBytes _ hdin hk)
    _ = applyBlock s.roundKey (undo us) (applyBlock s.roundKey us (Memory.block s.din k)) := by
        rw [block_dout_afterCommand hs hdout hk]
    _ = Memory.block s.din k := applyBlock_undo _ us _

/-- The same entries on two cores with the same round keys and the same block leave the same block. -/
theorem block_dout_afterCommand_congr {s' : State} {k' : Nat} {us : List UnitOp} (hs : s.Accepts) (hs' : s'.Accepts)
    (hdout : Memory.wf s.dout = true) (hdout' : Memory.wf s'.dout = true) (hk : k < s.count.toNat)
    (hk' : k' < s'.count.toNat) (hus : ∀ u ∈ us, u.Transforms s.nr.toNat)
    (hkey : ∀ rk, rk ≤ s.nr.toNat → s'.roundKey rk = s.roundKey rk)
    (hblock : Memory.block s'.din k' = Memory.block s.din k) :
    Memory.block (s.afterCommand us).dout k = Memory.block (s'.afterCommand us).dout k' := by
  rw [block_dout_afterCommand hs hdout hk, block_dout_afterCommand hs' hdout' hk', hblock, applyBlock, applyBlock,
    applyAll_congr s.roundKey hus hkey]

end

/-! ## The obligations -/

/-- Settles O41: the sequencer and the host, entry by entry, both run the fold of the list. -/
theorem commandEqualsItsUnitOperations : Obligations.CommandEqualsItsUnitOperations := fun s hinv hl hk hc => by
  have hs := hinv.accepts hk hc
  have hus := transforms_of_mem_encryptMiddle s.nr.toNat
  rw [encryptList_eq, decryptList_eq, execAll_map_toInstr hl, execAll_map_toInstr hl]
  exact ⟨⟨_, exec_encrypt_accepted hs, runAll_betweenCodec hs hus⟩,
    ⟨_, exec_decrypt_accepted hs, runAll_betweenCodec hs (transforms_of_mem_undo hus)⟩⟩

/-- Settles O44: the list of `DECRYPT` undoes that of `ENCRYPT` entry by entry, so each command undoes the other on every
block. -/
theorem decryptUndoesEncrypt : Obligations.DecryptUndoesEncrypt := fun s hinv hk hc => by
  have hs := hinv.accepts hk hc
  obtain ⟨_, _, _, _, _, ⟨hdin, _⟩, hdout, _⟩ := hinv
  refine ⟨⟨_, _, exec_encrypt_accepted hs, exec_decrypt_accepted (hs.copyOut_afterCommand _ _), fun a ha => ?_⟩,
    ⟨_, _, exec_decrypt_accepted hs, exec_encrypt_accepted (hs.copyOut_afterCommand _ _), fun a ha => ?_⟩⟩
  · exact read_dout_afterCommand_undo hs hdin hdout (encryptMiddle s.nr.toNat) ha
  · have h := read_dout_afterCommand_undo hs hdin hdout (undo (encryptMiddle s.nr.toNat)) ha
    rwa [undo_undo] at h

/-- Settles O45: on either core the block that comes out is what one lane makes of the block that went in. -/
theorem batchBlocksAreIndependent : Obligations.BatchBlocksAreIndependent :=
    fun s s' k hinv hinv' hk hk' hc hone hlt hnr hkey hblock => by
  have hone' : s'.count.toNat = 1 := by rw [hone]; rfl
  have hpos : 0 < s'.count.toNat := by omega
  have hc' : s'.LegalCount := by rw [State.LegalCount, hone']; exact ⟨Nat.le_refl 1, s'.cfg.W_pos⟩
  have hs := hinv.accepts hk hc
  have hs' := hinv'.accepts hk' hc'
  have hus := transforms_of_mem_encryptMiddle s.nr.toNat
  obtain ⟨_, _, _, _, _, _, hdout, _⟩ := hinv
  obtain ⟨_, _, _, _, _, _, hdout', _⟩ := hinv'
  refine ⟨⟨_, _, exec_encrypt_accepted hs, exec_encrypt_accepted hs', ?_⟩,
    ⟨_, _, exec_decrypt_accepted hs, exec_decrypt_accepted hs', ?_⟩⟩
  · rw [hnr]
    exact block_dout_afterCommand_congr hs hs' hdout hdout' hlt hpos hus hkey hblock
  · rw [hnr]
    exact block_dout_afterCommand_congr hs hs' hdout hdout' hlt hpos (transforms_of_mem_undo hus) hkey hblock

end Sys2Proof.Machine
end

section
/-! The family `60_exceptions`: which operation raises which error, exactly when, and that raising records the code
alone (R181 to R183). All of it is one inversion of `exec`: a completed operation succeeded with everything it checks in
order, or raised one of the two errors. -/

namespace Sys2Proof.Machine

/-! ## A check that lets an operation complete was passed -/

section
variable {s t : State}

theorem atUnitLevel_eq_next {k : Result} (h : atUnitLevel s k = .next t) : k = .next t := by
  rcases atUnitLevel_cases s k with ⟨_, e⟩ | ⟨_, e⟩ <;> rw [e] at h
  · exact h
  · cases h

theorem withSchedule_eq_next {k : Result} (h : withSchedule s k = .next t) : k = .next t := by
  rcases withSchedule_cases s k with ⟨_, e⟩ | ⟨_, e⟩ <;> rw [e] at h
  · exact h
  · cases h

theorem withBatch_eq_next {k : Batch s.cfg.W → Result} (h : withBatch s k = .next t) : ∃ p, k p = .next t := by
  rcases withBatch_cases s k with ⟨p, _, _, e⟩ | ⟨_, e⟩ <;> rw [e] at h
  · exact ⟨p, h⟩
  · cases h

theorem withRoundKey_eq_next {rk : Nat} {k : Batch s.cfg.W → Result} (h : withRoundKey s rk k = .next t) :
    ∃ key, k key = .next t := by
  rcases withRoundKey_cases s rk k with ⟨key, _, _, _, e⟩ | ⟨_, e⟩ | ⟨_, _, e⟩ <;> rw [e] at h
  · exact ⟨key, h⟩
  · cases h
  · cases h

/-! ## Completing without raising leaves `ERR` 0 (R184) -/

theorem err_of_succeed (h : succeed s = .next t) : t.err = .success := by
  cases h
  rfl

theorem err_of_transform {f : Batch s.cfg.W → Batch s.cfg.W} (h : transform s f = .next t) : t.err = .success := by
  obtain ⟨_, h⟩ := withBatch_eq_next h
  exact err_of_succeed h

theorem err_of_unitAddRoundKey {rk : Nat} (h : unitAddRoundKey rk s = .next t) : t.err = .success := by
  obtain ⟨_, h⟩ := withBatch_eq_next h
  obtain ⟨_, h⟩ := withRoundKey_eq_next h
  exact err_of_transform h

/-- Whatever the entries of the list leave in `ERR`, the command ends with `ERR <- 0` (R162, R163). -/
theorem err_of_runExpansion {ops : List UnitOp} (h : runExpansion ops s = .next t) : t.err = .success := by
  unfold runExpansion at h
  cases hseq : sequencer ops ops.length s <;> rw [hseq] at h
  case next => exact err_of_succeed h
  all_goals cases h

end

/-! ## Everything a completed operation can leave -/

/-- The ways operation `i` completes from `s`: it succeeds, and then nothing it checks was wrong, or it raises the error
that its own check found. -/
inductive Completion (i : Instr) (s : State) : State → Prop
  | success {t : State} (herr : t.err = .success) (hkey : i = .expand → s.LegalKeyLength)
      (hcount : Instr.readsCount i = true → s.LegalCount) : Completion i s t
  | badKeyLength (hi : i = .expand) (hkey : ¬s.LegalKeyLength) : Completion i s (s.setErr .invalidKeyLength)
  | badCount (hi : Instr.readsCount i = true) (hcount : ¬s.LegalCount) : Completion i s (s.setErr .invalidBatchSize)

theorem ne_expand_of_readsCount {i : Instr} (h : Instr.readsCount i = true) : i ≠ .expand := by
  rintro rfl
  cases h

section
variable {i : Instr} {s t : State}

/-- An operation that checks neither `KLEN` nor `COUNT` only succeeds. -/
theorem Completion.of_err_success (hi : i ≠ .expand) (hcount : Instr.readsCount i = false) (herr : t.err = .success) :
    Completion i s t :=
  .success herr (fun h => absurd h hi) fun h => absurd (hcount.symm.trans h) Bool.false_ne_true

/-- The batch-size check decides between `InvalidBatchSize` and the rest of the operation. -/
theorem completion_of_withCount {k : Nat → Result} (hi : Instr.readsCount i = true)
    (hk : ∀ {n : Nat}, k n = .next t → t.err = .success) (h : withCount s k = .next t) : Completion i s t := by
  rcases withCount_cases s k with ⟨hpos, hle, e⟩ | ⟨hbad, e⟩ <;> rw [e] at h
  · exact .success (hk h) (fun he => absurd he (ne_expand_of_readsCount hi)) fun _ => ⟨hpos, hle⟩
  · cases h
    exact .badCount hi (s.not_legalCount.mpr hbad)

theorem completion_of_runUnit {u : UnitOp} (h : runUnit u s = .next t) : Completion u.toInstr s t := by
  cases u with
  | encode => exact completion_of_withCount rfl err_of_succeed h
  | decode =>
    obtain ⟨_, h⟩ := withBatch_eq_next h
    exact completion_of_withCount rfl err_of_succeed h
  | addRoundKey rk => exact .of_err_success (by simp [UnitOp.toInstr]) rfl (err_of_unitAddRoundKey h)
  | subBytes | invSubBytes | shiftRows | invShiftRows | mixColumns | invMixColumns =>
    exact .of_err_success (by simp [UnitOp.toInstr]) rfl (err_of_transform h)

theorem completion_of_expand (h : exec .expand s = .next t) : Completion .expand s t := by
  by_cases hkey : s.LegalKeyLength
  · rw [exec_expand_good ((goodKeyLength_iff s).mpr hkey)] at h
    cases h
    exact .success rfl (fun _ => hkey) nofun
  · rw [expandRejectsOtherKeyLengths s hkey] at h
    cases h
    exact .badKeyLength rfl hkey

/-- `ENCRYPT` and `DECRYPT`, each with its own list. -/
theorem completion_of_publicCommand {ops : List UnitOp} (hi : Instr.readsCount i = true)
    (h : withSchedule s (withCount s fun _ => runExpansion ops s) = .next t) : Completion i s t :=
  completion_of_withCount hi err_of_runExpansion (withSchedule_eq_next h)

/-- The inversion of `exec`: an operation that is not refused completes in one of the three ways. -/
theorem completion_of_exec (h : exec i s = .next t) : Completion i s t := by
  by_cases hi : Instr.isUnit i = true
  · obtain ⟨u, rfl⟩ := (isUnit_iff_exists_toInstr i).mp hi
    rw [exec_toInstr_eq_atUnitLevel] at h
    exact completion_of_runUnit (atUnitLevel_eq_next h)
  · cases i with
    | expand => exact completion_of_expand h
    | encrypt | decrypt => exact completion_of_publicCommand rfl h
    | _ => exact absurd rfl hi

/-! ## What `ERR` says about a completed operation -/

theorem Completion.eq_setErr (h : Completion i s t) (herr : t.err ≠ .success) : t = s.setErr t.err := by
  cases h with
  | success hsuccess => exact absurd hsuccess herr
  | badKeyLength | badCount => rfl

theorem Completion.err_eq_invalidKeyLength_iff (h : Completion i s t) :
    t.err = .invalidKeyLength ↔ i = .expand ∧ ¬s.LegalKeyLength := by
  cases h with
  | success herr hkey => exact iff_of_false (by simp [herr]) fun ⟨hi, hbad⟩ => hbad (hkey hi)
  | badKeyLength hi hkey => exact iff_of_true rfl ⟨hi, hkey⟩
  | badCount hi => exact iff_of_false (by simp) fun ⟨he, _⟩ => ne_expand_of_readsCount hi he

theorem Completion.err_eq_invalidBatchSize_iff (h : Completion i s t) :
    t.err = .invalidBatchSize ↔ Instr.readsCount i = true ∧ ¬s.LegalCount := by
  cases h with
  | success herr _ hcount => exact iff_of_false (by simp [herr]) fun ⟨hi, hbad⟩ => hbad (hcount hi)
  | badKeyLength he => exact iff_of_false (by simp) fun ⟨hi, _⟩ => ne_expand_of_readsCount hi he
  | badCount hi hcount => exact iff_of_true rfl ⟨hi, hcount⟩

end

/-! ## The obligations -/

/-- Settles O18: of the three ways to complete, the two that raise leave the old state with `ERR` replaced. -/
theorem raisingChangesOnlyErr : Obligations.RaisingChangesOnlyErr := fun _ _ _ h herr =>
  (completion_of_exec h).eq_setErr herr

/-- Settles O16: of the three ways to complete, one raises `InvalidKeyLength`, and it is `EXPAND`'s. -/
theorem invalidKeyLengthExactlyWhen : Obligations.InvalidKeyLengthExactlyWhen :=
  ⟨rfl, fun i s t h => ⟨(completion_of_exec h).err_eq_invalidKeyLength_iff, fun herr =>
    herr ▸ raisingChangesOnlyErr i s t h (by simp [herr])⟩⟩

/-- Settles O17: of the three ways to complete, one raises `InvalidBatchSize`, and it is that of the operations that
read `COUNT`. -/
theorem invalidBatchSizeExactlyWhen : Obligations.InvalidBatchSizeExactlyWhen :=
  ⟨rfl, fun i s t h =>
    ⟨(completion_of_exec h).err_eq_invalidBatchSize_iff.trans (and_congr_right' s.not_legalCount), fun herr =>
      herr ▸ raisingChangesOnlyErr i s t h (by simp [herr])⟩⟩

end Sys2Proof.Machine
end

section
/-! The family `other`, the command word: the decoder and the encoder are inverse to each other (R71 to R73). -/

namespace Sys2Proof

theorem matchWhole_eq_ok_iff (w : Byte) (i j : Instr) : matchWhole w i = .ok j ↔ w.toNat / 16 = 0 ∧ i = j := by
  by_cases h : w.toNat / 16 = 0 <;> simp [matchWhole, h]

theorem toNat_encode_addroundkey {rk : Nat} (h : rk ≤ 15) : (encode (.addroundkey rk)).toNat = 12 + 16 * rk := by
  simp only [encode, BitVec.toNat_ofNat]
  omega

/-- Settles O1: the word of `ADDROUNDKEY rk` has the two fields 12 and `rk`; each other operation has one fixed word. -/
theorem decodeOfEncode : Obligations.DecodeOfEncode := by
  intro i h
  cases i with
  | addroundkey rk =>
    have hword := toNat_encode_addroundkey (of_decide_eq_true h : rk ≤ 15)
    have hindex : (12 + 16 * rk) / 16 = rk := by omega
    rw [decode_of_op_twelve (by omega), hword, hindex]
  | _ => rfl

/-- Settles O2: `OP` by `OP`, the word is known from `OP` alone when `R` must be 0, and from both fields for
`ADDROUNDKEY`. -/
theorem encodeOfDecode : Obligations.EncodeOfDecode := by
  intro w i h
  have hlt : w.toNat < 256 := w.isLt
  have whole {op : Nat} {j : Instr} (hop : w.toNat % 16 = op) (hj : (encode j).toNat = op)
      (hwf : WellFormed j) (hm : matchWhole w j = .ok i) : encode i = w ∧ WellFormed i := by
    obtain ⟨hzero, rfl⟩ := (matchWhole_eq_ok_iff w j i).mp hm
    exact ⟨BitVec.eq_of_toNat_eq (by omega), hwf⟩
  unfold decode at h
  rw [opField_eq_mod, indexField_eq_div] at h
  split at h
  case h_1 | h_14 => cases h
  case h_13 hop =>
    cases h
    have hle : w.toNat / 16 ≤ 15 := by omega
    have hword := toNat_encode_addroundkey hle
    exact ⟨BitVec.eq_of_toNat_eq (by omega), decide_eq_true hle⟩
  all_goals
    rename_i hop
    exact whole hop rfl rfl h

/-- Settles O4: the words are the encodings of the operations, so this is O1 at ten operations. -/
theorem wordsOfTheTableDecode : Obligations.WordsOfTheTableDecode :=
  ⟨decodeOfEncode .expand rfl, decodeOfEncode .encrypt rfl, decodeOfEncode .decrypt rfl, decodeOfEncode .encode rfl,
    decodeOfEncode .decode rfl, decodeOfEncode .subbytes rfl, decodeOfEncode .invshiftrows rfl,
    decodeOfEncode .mixcolumns rfl, decodeOfEncode (.addroundkey 3) rfl, decodeOfEncode (.addroundkey 15) rfl⟩

end Sys2Proof
end

section
/-! The family `other`, steps: what the host's actions and a reset do (R31 to R35, R39, R200, R211), what the host reads
(R29, R40), and what every operation keeps, in whatever state it is issued. -/

namespace Sys2Proof.Machine

/-! ## One step -/

section
variable {s : State}

theorem step_idle (h : s.host = []) : step s = .next s := by
  simp only [step, h]

theorem step_cons {a : HostAction} {rest : List HostAction} (h : s.host = a :: rest) :
    step s = perform a (s.setHost rest) := by
  simp only [step, h]

theorem issue_decoded {w : Byte} {i : Instr} (h : decode w = .ok i) : issue w s = exec i s := by
  simp only [issue, h]

theorem hostWriteKeybuf_inside {off : Nat} (h : off < 32) (v : Byte) :
    hostWriteKeybuf off v s = .next (s.setKeybuf (Memory.write s.keybuf off v)) :=
  if_pos h

theorem hostWriteKeybuf_outside {off : Nat} (h : 32 ≤ off) (v : Byte) :
    hostWriteKeybuf off v s = .fault (.outsideBuffer .keybuf off) :=
  if_neg (Nat.not_lt.mpr h)

theorem hostWriteDin_inside {off : Nat} (h : off < 16 * s.cfg.W) (v : Byte) :
    hostWriteDin off v s = .next (s.setDin (Memory.write s.din off v)) :=
  if_pos h

theorem hostWriteDin_outside {off : Nat} (h : 16 * s.cfg.W ≤ off) (v : Byte) :
    hostWriteDin off v s = .fault (.outsideBuffer .din off) :=
  if_neg (Nat.not_lt.mpr h)

end

/-- A word placed whole is the word itself. -/
theorem tableWord_eight (w : Byte) : tableWord 8 w.toNat = w :=
  BitVec.eq_of_toNat_eq (by simp [tableWord, w.isLt])

/-- Settles O5: the step takes the word off the script, and the word decodes to the operation. -/
theorem stepRunsTheDecodedCommand : Obligations.StepRunsTheDecodedCommand := by
  intro s w i hd
  have command {u : State} {rest : List HostAction} (h : u.host = .command w :: rest) :
      step u = exec i (u.setHost rest) := (step_cons h).trans (issue_decoded hd)
  refine ⟨fun rest => command, command ?_⟩
  rw [State.withFetchWord, tableWord_eight, State.setHost_host]

/-- Settles O6: each clause is the step on one action, and the buffers read as a write to a canonical buffer does. -/
theorem hostWritesReachTheirPort : Obligations.HostWritesReachTheirPort := by
  intro s rest off v hinv
  obtain ⟨_, _, _, _, ⟨hkeybuf, _⟩, ⟨hdin, _⟩, _⟩ := hinv
  exact ⟨step_idle, step_cons, step_cons,
    fun h => ⟨fun hlt => ⟨_, (step_cons h).trans (hostWriteKeybuf_inside hlt v),
        fun a => Memory.read_write off v a hkeybuf⟩,
      fun hle => (step_cons h).trans (hostWriteKeybuf_outside hle v)⟩,
    fun h => ⟨fun hlt => ⟨_, (step_cons h).trans (hostWriteDin_inside (s := s.setHost rest) hlt v),
        fun a => Memory.read_write off v a hdin⟩,
      fun hle => (step_cons h).trans (hostWriteDin_outside (s := s.setHost rest) hle v)⟩⟩

/-- Settles O7: the reset constant and the reset event, field by field. -/
theorem resetLeavesTheResetValues : Obligations.ResetLeavesTheResetValues := by
  refine ⟨fun cfg keybuf din dout => ?_, rfl, fun s rest h => ⟨resetEvent (s.setHost rest), step_cons h, ?_⟩⟩
  · exact ⟨rfl, rfl, rfl, rfl, rfl, rfl, rfl, rfl, State.resetOf_rk cfg keybuf din dout, rfl, rfl, rfl⟩
  · exact ⟨rfl, rfl, rfl, rfl, rfl, rfl, rfl, rfl, rfl, rfl, resetEvent_rk _⟩

/-! ## The status register -/

theorem status_fields (nr : BitVec 4) (err : BitVec 2) (pvalid kvalid : Bool) :
    let status := nr ++ err ++ BitVec.ofBool pvalid ++ BitVec.ofBool kvalid
    status.getLsbD 0 = kvalid ∧ status.getLsbD 1 = pvalid ∧ status.extractLsb' 2 2 = err ∧
      status.extractLsb' 4 4 = nr := by
  revert nr err pvalid kvalid
  decide +kernel

/-- Settles O22: the four fields of `STATUS` are told apart by their places, and a read is a case of `hostRead`. -/
theorem hostReadsThePorts : Obligations.HostReadsThePorts := by
  intro s
  obtain ⟨hkvalid, hpvalid, herr, hnr⟩ := status_fields s.nr s.err.code s.pvalid s.kvalid
  exact ⟨rfl, hkvalid, hpvalid, herr, hnr, fun h => by simp only [hostRead, h], fun h => by simp only [hostRead, h],
    rfl, rfl, fun _ h => if_pos h, fun _ h => if_pos h, fun _ h => if_pos h⟩

/-! ## What an operation keeps, in every state -/

theorem DataStep.setSeq {s t : State} (h : DataStep s t) (v : BitVec 6) : DataStep (s.setSeq v) (t.setSeq v) := by
  obtain ⟨⟨p, pv, m, e, rfl⟩, hv⟩ := h
  exact ⟨⟨p, pv, m, e, rfl⟩, hv⟩

/-- From any `SEQ`, so also in states no run reaches, where the sequencer is not the fold of its list. -/
theorem sequencer_answers (ops : List UnitOp) (fuel : Nat) (s : State) :
    (∃ t, sequencer ops fuel s = .next t ∧ DataStep (s.setSeq 0) t) ∨ ∃ r, sequencer ops fuel s = .refused r := by
  induction fuel generalizing s with
  | zero => exact .inl ⟨_, rfl, DataStep.refl _⟩
  | succ fuel ih =>
    rw [sequencer]
    cases ops[s.seq.toNat]? with
    | none => exact .inl ⟨_, rfl, DataStep.refl _⟩
    | some u =>
      rcases runUnit_answers u s with ⟨t, h, hd⟩ | ⟨r, _, h⟩ <;> simp only [h]
      · rcases ih (t.setSeq (t.seq + 1)) with ⟨v, h', hd'⟩ | h'
        · exact .inl ⟨v, h', (hd.setSeq 0).trans hd'⟩
        · exact .inr h'
      · exact .inr ⟨r, rfl⟩

theorem runExpansion_answers (ops : List UnitOp) (s : State) :
    (∃ t, runExpansion ops s = .next t ∧ DataStep (s.setSeq 0) t) ∨ ∃ r, runExpansion ops s = .refused r := by
  unfold runExpansion
  rcases sequencer_answers ops ops.length s with ⟨t, h, hd⟩ | ⟨r, h⟩ <;> rw [h]
  · exact .inl ⟨_, rfl, hd.trans (DataStep.setErr t _)⟩
  · exact .inr ⟨r, rfl⟩

/-- What no operation and no port write changes or clears: the parameters, and the valid flags once set. -/
structure Keeps (s t : State) : Prop where
  cfg : t.cfg = s.cfg
  kvalid : s.kvalid = true → t.kvalid = true
  pvalid : s.pvalid = true → t.pvalid = true

/-- A completed operation keeps the parameters, the flags and the host's script. -/
def KeptByExec (s t : State) : Prop := Keeps s t ∧ t.host = s.host

theorem DataStep.keptByExec_of_setSeq {s t : State} {v : BitVec 6} (h : DataStep (s.setSeq v) t) : KeptByExec s t := by
  obtain ⟨⟨p, pv, m, e, rfl⟩, hv⟩ := h
  exact ⟨⟨rfl, id, hv⟩, rfl⟩

theorem DataStep.keptByExec {s t : State} (h : DataStep s t) : KeptByExec s t :=
  DataStep.keptByExec_of_setSeq (v := s.seq) (by rwa [State.setSeq_self])

theorem publicCommand_answers (ops : List UnitOp) (s : State) :
    let answer := withSchedule s (withCount s fun _ => runExpansion ops s)
    (∃ t, answer = .next t ∧ KeptByExec s t) ∨ ∃ r, answer = .refused r := by
  rcases public_cases ops s _ rfl with ⟨_, e⟩ | ⟨_, _, e⟩ | ⟨_, _, _, e⟩ <;> simp only [e]
  · exact .inr ⟨_, rfl⟩
  · exact .inl ⟨_, rfl, (DataStep.setErr s _).keptByExec⟩
  · rcases runExpansion_answers ops s with ⟨t, h, hd⟩ | h
    · exact .inl ⟨t, h, hd.keptByExec_of_setSeq⟩
    · exact .inr h

/-- An operation completes and keeps these, or is refused; it never faults. -/
theorem exec_answers (i : Instr) (s : State) :
    (∃ t, exec i s = .next t ∧ KeptByExec s t) ∨ ∃ r, exec i s = .refused r := by
  by_cases hi : Instr.isUnit i = true
  · obtain ⟨u, rfl⟩ := (isUnit_iff_exists_toInstr i).mp hi
    rw [exec_toInstr_eq_atUnitLevel]
    rcases atUnitLevel_cases s (runUnit u s) with ⟨_, e⟩ | ⟨_, e⟩ <;> rw [e]
    · rcases runUnit_answers u s with ⟨t, h, hd⟩ | ⟨r, _, h⟩
      · exact .inl ⟨t, h, hd.keptByExec⟩
      · exact .inr ⟨r, h⟩
    · exact .inr ⟨_, rfl⟩
  · cases i with
    | expand =>
      cases hk : goodKeyLength s.klen
      · exact .inl ⟨_, exec_expand_bad hk, ⟨rfl, id, id⟩, rfl⟩
      · exact .inl ⟨_, exec_expand_good hk, ⟨rfl, fun _ => rfl, id⟩, rfl⟩
    | encrypt | decrypt => exact publicCommand_answers _ s
    | _ => exact absurd rfl hi

theorem keptByExec_of_exec {i : Instr} {s t : State} (h : exec i s = .next t) : KeptByExec s t := by
  rcases exec_answers i s with ⟨t', h', hkept⟩ | ⟨r, h'⟩ <;> rw [h'] at h <;> cases h
  exact hkept

theorem perform_keeps {a : HostAction} {s t : State} (ha : a ≠ .reset) (h : perform a s = .next t) : Keeps s t := by
  rcases perform_next h with ⟨_, i, _, _, h⟩ | ⟨_, _, _, _, rfl⟩ | ⟨_, _, rfl⟩ | ⟨_, _, _, _, rfl⟩ | ⟨_, _, rfl⟩ |
    ⟨hreset, _⟩
  · exact (keptByExec_of_exec h).1
  · exact ⟨rfl, id, id⟩
  · exact ⟨rfl, id, id⟩
  · exact ⟨rfl, id, id⟩
  · exact ⟨rfl, id, id⟩
  · exact absurd hreset ha

theorem perform_host {a : HostAction} {s t : State} (h : perform a s = .next t) : t.host = s.host := by
  rcases perform_next h with ⟨_, i, _, _, h⟩ | ⟨_, _, _, _, rfl⟩ | ⟨_, _, rfl⟩ | ⟨_, _, _, _, rfl⟩ | ⟨_, _, rfl⟩ |
    ⟨_, rfl⟩
  · exact (keptByExec_of_exec h).2
  all_goals rfl

/-- Settles O10: no operation and no port write changes the parameters, and neither does the reset event. -/
theorem stepKeepsTheParameters : Obligations.StepKeepsTheParameters := by
  intro s t h
  rcases step_next h with ⟨_, rfl⟩ | ⟨a, rest, _, h⟩
  · rfl
  · by_cases ha : a = .reset
    · subst ha
      cases h
      rfl
    · exact (perform_keeps ha h).cfg

/-- Settles O11: every other action keeps the flags that are set. -/
theorem onlyResetClearsTheValidFlags : Obligations.OnlyResetClearsTheValidFlags := by
  intro s t h hreset
  rcases step_next h with ⟨_, rfl⟩ | ⟨a, rest, hhost, h⟩
  · exact ⟨id, id⟩
  · have ha : a ≠ .reset := fun e => hreset rest (e ▸ hhost)
    exact ⟨(perform_keeps ha h).kvalid, (perform_keeps ha h).pvalid⟩

/-- Settles O13: the two answers of an operation are a next state and a refusal. -/
theorem operationsNeverFault : Obligations.OperationsNeverFault := by
  intro i s r h
  rcases exec_answers i s with ⟨_, e, _⟩ | ⟨_, e⟩ <;> rw [e] at h <;> cases h

end Sys2Proof.Machine
end

section
/-! The family `other`, answers: what an operation answers in a state the core can be in, as one inversion of `exec`
(the refusals of R187 on one side, everything a completed operation can leave on the other), and what follows from it:
the invariant, the frames, the list of refusals, and that data has no part in them. -/

namespace Sys2Proof.Machine

/-! ## The answer to an operation -/

/-- `ADDROUNDKEY rk` names no round key of the schedule (R127). -/
def Instr.indexRefusal (i : Instr) (s : State) : Option Refusal :=
  match i with
  | .addroundkey rk => if s.nr.toNat < rk then some (.noRoundKey rk) else none
  | _ => none

/-- The refusal of R187 that an operation meets, in the order of its checks: a function of the level, `PVALID`, `KVALID`
and `NR` alone. -/
def Instr.refusal (i : Instr) (s : State) : Option Refusal :=
  if Instr.isUnit i = true ∧ s.cfg.level = .publicLevel then some .unitAtPublicLevel
  else if Instr.readsBatch i = true ∧ s.pvalid = false then some .noBatch
  else if Instr.readsSchedule i = true ∧ s.kvalid = false then some .noSchedule
  else Instr.indexRefusal i s

/-- Everything operation `i` can leave when it completes from a state `s` with the invariant. -/
inductive Leaves (s : State) : Instr → State → Prop
  | badCount {i : Instr} (hi : Instr.readsCount i = true) (hcount : ¬s.LegalCount) :
      Leaves s i (s.setErr .invalidBatchSize)
  | badKeyLength (hkey : ¬s.LegalKeyLength) : Leaves s .expand (s.setErr .invalidKeyLength)
  | schedule (hkey : s.LegalKeyLength) :
      Leaves s .expand ((s.setSchedule (BitVec.ofNat 4 (roundCount s.klen))
        (roundKeys s.cfg.W (scheduleWords s.keybuf s.klen) (roundCount s.klen))).setErr .success)
  | encoded (hcount : s.LegalCount) (p : Batch s.cfg.W) : Leaves s .encode (s.loaded p)
  | decoded (hcount : s.LegalCount) (p : Batch s.cfg.W) :
      Leaves s .decode ((s.setDout (Memory.writeBytes s.dout 0 (decodedBytes s.count.toNat p))).setErr .success)
  | transformed {i : Instr} (hi : Instr.readsBatch i = true) (hne : i ≠ .decode) (hpvalid : s.pvalid = true)
      (p : Batch s.cfg.W) : Leaves s i ((s.setP p).setErr .success)
  | command {i : Instr} (hi : i = .encrypt ∨ i = .decrypt) (hcount : s.LegalCount) (us : List UnitOp) :
      Leaves s i (s.afterCommand us)

/-- An answer to operation `i` in `s`: its refusal, or, when it meets none, a state it can leave. -/
inductive Answer (i : Instr) (s : State) : Result → Prop
  | refused {r : Refusal} (h : Instr.refusal i s = some r) : Answer i s (.refused r)
  | next {t : State} (h : Instr.refusal i s = none) (ht : Leaves s i t) : Answer i s (.next t)

theorem State.Inv.pvalid_eq_false {s : State} (hinv : s.Inv) (h : s.pvalid = false ∨ s.p = none) :
    s.pvalid = false := by
  rcases h with h | h
  · exact h
  · exact Bool.eq_false_iff.mpr fun hv => by simpa [h] using hinv.1.mp hv

section
variable {i : Instr} {s : State}

/-- The batch-size check, the other checks passed: the error, or the rest of the operation with a legal `COUNT`. -/
theorem answer_withCount {k : Nat → Result} (h : Instr.refusal i s = none) (hi : Instr.readsCount i = true)
    (hk : s.LegalCount → Answer i s (k s.count.toNat)) : Answer i s (withCount s k) := by
  rcases withCount_cases s k with ⟨hpos, hle, e⟩ | ⟨hbad, e⟩ <;> rw [e]
  · exact hk ⟨hpos, hle⟩
  · exact .next h (.badCount hi (s.not_legalCount.mpr hbad))

/-- The check of `P`, at the unit level. -/
theorem answer_withBatch {k : Batch s.cfg.W → Result} (hinv : s.Inv) (hl : s.cfg.level = .unitLevel)
    (hi : Instr.readsBatch i = true) (hk : ∀ p, s.pvalid = true → s.p = some p → Answer i s (k p)) :
    Answer i s (withBatch s k) := by
  rcases withBatch_cases s k with ⟨p, hv, hp, e⟩ | ⟨hnone, e⟩ <;> rw [e]
  · exact hk p hv hp
  · exact .refused (by simp [Instr.refusal, hl, hi, hinv.pvalid_eq_false hnone])

theorem refusal_eq_none (hunit : Instr.isUnit i = true → s.cfg.level = .unitLevel)
    (hbatch : Instr.readsBatch i = true → s.pvalid = true) (hschedule : Instr.readsSchedule i = true → s.kvalid = true)
    (hindex : Instr.indexRefusal i s = none) : Instr.refusal i s = none := by
  rw [Instr.refusal, if_neg, if_neg, if_neg, hindex]
  · exact fun ⟨hi, hk⟩ => by simp [hschedule hi] at hk
  · exact fun ⟨hi, hv⟩ => by simp [hbatch hi] at hv
  · exact fun ⟨hi, hl⟩ => by simp [hunit hi] at hl

theorem answer_unitAddRoundKey {rk : Nat} (hinv : s.Inv) (hl : s.cfg.level = .unitLevel) :
    Answer (.addroundkey rk) s (unitAddRoundKey rk s) := by
  refine answer_withBatch hinv hl rfl fun p hv hp => ?_
  rcases withRoundKey_cases s rk fun key => transform s (addRoundKey key) with
    ⟨key, hk, hle, _, e⟩ | ⟨hk, e⟩ | ⟨hk, habsent, e⟩ <;> rw [e]
  · rw [transform_some hv hp]
    exact .next (refusal_eq_none (fun _ => hl) (fun _ => hv) (fun _ => hk) (if_neg (Nat.not_lt.mpr hle)))
      (.transformed rfl (by simp) hv _)
  · exact .refused (by simp [Instr.refusal, Instr.readsSchedule, hl, hv, hk])
  · have habove : s.nr.toNat < rk := Nat.lt_of_not_le fun hle =>
      habsent.elim (Nat.not_lt.mpr hle) fun h => h (hinv.roundKeyPlanes_some hk hle)
    exact .refused (by simp [Instr.refusal, Instr.indexRefusal, hl, hv, hk, habove])

theorem answer_runUnit (hinv : s.Inv) (hl : s.cfg.level = .unitLevel) (u : UnitOp) :
    Answer u.toInstr s (runUnit u s) := by
  cases u with
  | encode =>
    have hfree : Instr.refusal .encode s = none := refusal_eq_none (fun _ => hl) nofun nofun rfl
    show Answer .encode s (unitEncode s)
    exact answer_withCount hfree rfl fun hc => .next hfree (.encoded hc _)
  | decode =>
    refine answer_withBatch hinv hl rfl fun p hv _ => ?_
    have hfree : Instr.refusal .decode s = none := refusal_eq_none (fun _ => hl) (fun _ => hv) nofun rfl
    exact answer_withCount hfree rfl fun hc => .next hfree (.decoded hc p)
  | addRoundKey rk => exact answer_unitAddRoundKey hinv hl
  | subBytes | invSubBytes | shiftRows | invShiftRows | mixColumns | invMixColumns =>
    exact answer_withBatch hinv hl rfl fun p hv _ =>
      .next (refusal_eq_none (fun _ => hl) (fun _ => hv) nofun rfl) (.transformed rfl (by simp [UnitOp.toInstr]) hv _)

theorem answer_expand : Answer .expand s (exec .expand s) := by
  have hfree : Instr.refusal .expand s = none := refusal_eq_none nofun nofun nofun rfl
  by_cases hkey : s.LegalKeyLength
  · rw [exec_expand_good ((goodKeyLength_iff s).mpr hkey)]
    exact .next hfree (.schedule hkey)
  · rw [expandRejectsOtherKeyLengths s hkey]
    exact .next hfree (.badKeyLength hkey)

/-- `ENCRYPT` and `DECRYPT`, each with its own entries between the codec's two. -/
theorem answer_publicCommand {us : List UnitOp} (hi : i = .encrypt ∨ i = .decrypt)
    (haccepted : s.Accepts → exec i s = .next (s.afterCommand us)) (hinv : s.Inv) : Answer i s (exec i s) := by
  have hcommand : ∃ ops, exec i s = withSchedule s (withCount s fun _ => runExpansion ops s) := by
    rcases hi with rfl | rfl <;> exact ⟨_, rfl⟩
  have hcount : Instr.readsCount i = true := by rcases hi with rfl | rfl <;> rfl
  have hfree (hk : s.kvalid = true) : Instr.refusal i s = none := by
    rcases hi with rfl | rfl <;> exact refusal_eq_none nofun nofun (fun _ => hk) rfl
  obtain ⟨ops, hcommand⟩ := hcommand
  rcases public_cases ops s _ hcommand with ⟨hk, e⟩ | ⟨hk, hbad, e⟩ | ⟨hk, hpos, hle, _⟩
  · rw [e]
    refine .refused (r := .noSchedule) ?_
    rcases hi with rfl | rfl <;> simp [Instr.refusal, Instr.isUnit, Instr.readsBatch, Instr.readsSchedule, hk]
  · rw [e]
    exact .next (hfree hk) (.badCount hcount (s.not_legalCount.mpr hbad))
  · rw [haccepted (hinv.accepts hk ⟨hpos, hle⟩)]
    exact .next (hfree hk) (.command hi ⟨hpos, hle⟩ us)

/-- The inversion of `exec` in a state the core can be in. -/
theorem answer_exec (hinv : s.Inv) (i : Instr) : Answer i s (exec i s) := by
  by_cases hi : Instr.isUnit i = true
  · obtain ⟨u, rfl⟩ := (isUnit_iff_exists_toInstr i).mp hi
    rw [exec_toInstr_eq_atUnitLevel]
    rcases atUnitLevel_cases s (runUnit u s) with ⟨hl, e⟩ | ⟨hl, e⟩ <;> rw [e]
    · exact answer_runUnit hinv hl u
    · exact .refused (by simp [Instr.refusal, hi, hl])
  · cases i with
    | expand => exact answer_expand
    | encrypt => exact answer_publicCommand (.inl rfl) exec_encrypt_accepted hinv
    | decrypt => exact answer_publicCommand (.inr rfl) exec_decrypt_accepted hinv
    | _ => exact absurd rfl hi

theorem leaves_of_exec {t : State} (hinv : s.Inv) (h : exec i s = .next t) : Leaves s i t := by
  have hanswer := answer_exec hinv i
  rw [h] at hanswer
  cases hanswer with
  | next _ ht => exact ht

theorem exec_eq_refused_iff {r : Refusal} (hinv : s.Inv) : exec i s = .refused r ↔ Instr.refusal i s = some r := by
  have hanswer := answer_exec hinv i
  generalize exec i s = answer at hanswer
  cases hanswer with
  | refused h => simp [h]
  | next h => simp [h]

theorem exec_completes (hinv : s.Inv) (h : Instr.refusal i s = none) : ∃ t, exec i s = .next t := by
  have hanswer := answer_exec hinv i
  generalize exec i s = answer at hanswer
  cases hanswer with
  | refused h' => simp [h'] at h
  | next => exact ⟨_, rfl⟩

end

/-! ## Refusals -/

theorem indexRefusal_eq_none_iff (i : Instr) (s : State) :
    Instr.indexRefusal i s = none ↔ ¬∃ rk, i = .addroundkey rk ∧ s.nr.toNat < rk := by
  cases i <;> simp [Instr.indexRefusal]

/-- The refusals an operation can meet are the situations of R187's list. -/
theorem exists_refusal_iff (i : Instr) (s : State) : (∃ r, Instr.refusal i s = some r) ↔ RefusedBySpec i s := by
  have hindex := indexRefusal_eq_none_iff i s
  rw [← Option.isSome_iff_exists, ← Option.ne_none_iff_isSome, not_iff_comm, RefusedBySpec]
  unfold Instr.refusal
  split_ifs with h1 h2 h3
  · simp [h1]
  · simp [h2]
  · simp [h3]
  · simp [h1, h2, h3, hindex]

/-- Settles O19: the operation's refusal is one of R187's list exactly when there is one. -/
theorem refusalsAreExactlyTheList : Obligations.RefusalsAreExactlyTheList := fun i s hinv =>
  (exists_congr fun _ => exec_eq_refused_iff hinv).trans (exists_refusal_iff i s)

/-- Settles O15: the batch-size check comes first, or right after the checks that refuse. -/
theorem badCountRaisesInvalidBatchSize : Obligations.BadCountRaisesInvalidBatchSize := by
  intro s hinv hcount
  have hbad := s.not_legalCount.mp hcount
  have command (ops : List UnitOp) (hk : s.kvalid = true) :
      withSchedule s (withCount s fun _ => runExpansion ops s) = .next (s.setErr .invalidBatchSize) := by
    rw [withSchedule_valid hk, withCount_bad hbad]
  refine ⟨fun hl => (atUnitLevel_unit hl _).trans (withCount_bad hbad _), fun hl hv => ?_, command _, command _⟩
  obtain ⟨p, hp⟩ := hinv.p_some hv
  exact (atUnitLevel_unit hl _).trans ((withBatch_some hv hp _).trans (withCount_bad hbad _))

/-! ## Public values -/

/-- `STATUS` after operation `i`: the error it raises, or success with the new `NR` and `KVALID` of `EXPAND`, or with
the `PVALID` that `ENCODE` sets, as a command or as the first entry of a list. -/
def Instr.statusAfter (i : Instr) (s : State) : Byte :=
  if Instr.readsCount i = true ∧ ¬s.LegalCount then (s.setErr .invalidBatchSize).status
  else if i = .expand ∧ ¬s.LegalKeyLength then (s.setErr .invalidKeyLength).status
  else if i = .expand then
    ((s.setSchedule (BitVec.ofNat 4 (roundCount s.klen)) s.rk).setErr .success).status
  else if Instr.readsCount i = true ∧ i ≠ .decode then ((s.setPvalid true).setErr .success).status
  else (s.setErr .success).status

theorem readsCount_eq_false_of_readsBatch {i : Instr} (h : Instr.readsBatch i = true) (hne : i ≠ .decode) :
    Instr.readsCount i = false := by
  cases i with
  | expand | encrypt | decrypt | encode => cases h
  | decode => exact absurd rfl hne
  | _ => rfl

theorem Leaves.status_eq {i : Instr} {s t : State} (h : Leaves s i t) : t.status = Instr.statusAfter i s := by
  cases h with
  | badCount hi hcount => rw [Instr.statusAfter, if_pos ⟨hi, hcount⟩]
  | badKeyLength hkey => simp [Instr.statusAfter, Instr.readsCount, hkey]
  | schedule hkey => simp [Instr.statusAfter, Instr.readsCount, hkey, State.status]
  | encoded hcount => simp [Instr.statusAfter, Instr.readsCount, hcount, State.status, State.loaded]
  | decoded hcount => simp [Instr.statusAfter, hcount, State.status]
  | transformed hi hne =>
    have hexpand : i ≠ .expand := by rintro rfl; cases hi
    simp [Instr.statusAfter, readsCount_eq_false_of_readsBatch hi hne, hexpand, State.status]
  | command hi hcount =>
    rcases hi with rfl | rfl <;>
      simp [Instr.statusAfter, Instr.readsCount, hcount, State.status, State.afterCommand, State.loaded]

theorem Leaves.seq_eq {i : Instr} {s t : State} (h : Leaves s i t) : t.seq = s.seq := by
  cases h <;> rfl

section
variable {s s' : State} (hcfg : s'.cfg = s.cfg) (hkvalid : s'.kvalid = s.kvalid) (hpvalid : s'.pvalid = s.pvalid)
  (hnr : s'.nr = s.nr)
include hcfg hkvalid hpvalid hnr

theorem refusal_congr (i : Instr) : Instr.refusal i s' = Instr.refusal i s := by
  have hindex : Instr.indexRefusal i s' = Instr.indexRefusal i s := by simp only [Instr.indexRefusal, hnr]
  simp only [Instr.refusal, hcfg, hkvalid, hpvalid, hindex]

theorem statusAfter_congr (hklen : s'.klen = s.klen) (hcount : s'.count = s.count) (i : Instr) :
    Instr.statusAfter i s' = Instr.statusAfter i s := by
  simp [Instr.statusAfter, State.status, State.LegalCount, State.LegalKeyLength, hcfg, hkvalid, hpvalid, hnr, hklen,
    hcount]

end

/-- Settles O47: the refusal an operation meets and the `STATUS` it leaves are functions of public values, and `SEQ`
stays 0. -/
theorem outcomesDoNotDependOnData : Obligations.OutcomesDoNotDependOnData := by
  intro i s s' hinv hinv' hcfg hkvalid hpvalid hnr hklen hcount
  have hrefusal := refusal_congr hcfg hkvalid hpvalid hnr i
  cases h : Instr.refusal i s with
  | some r => exact .inl ⟨r, (exec_eq_refused_iff hinv).mpr h, (exec_eq_refused_iff hinv').mpr (hrefusal.trans h)⟩
  | none =>
    obtain ⟨t, ht⟩ := exec_completes hinv h
    obtain ⟨t', ht'⟩ := exec_completes hinv' (hrefusal.trans h)
    have hleaves := leaves_of_exec hinv ht
    have hleaves' := leaves_of_exec hinv' ht'
    obtain ⟨_, _, _, hseq, _⟩ := hinv
    obtain ⟨_, _, _, hseq', _⟩ := hinv'
    exact .inr ⟨t, t', ht, ht',
      by rw [hleaves'.status_eq, hleaves.status_eq, statusAfter_congr hcfg hkvalid hpvalid hnr hklen hcount],
      by rw [hleaves'.seq_eq, hleaves.seq_eq, hseq', hseq]⟩

/-! ## Frames -/

/-- `DECODE` of the first `n` blocks writes nothing from offset `16n` on (R92). -/
theorem read_writeBytes_decodedBytes {m : Memory} {w n a : Nat} (p : Batch w) (h : Memory.wf m = true)
    (ha : 16 * n ≤ a) :
    Memory.read (Memory.writeBytes m 0 (decodedBytes n p)) a = Memory.read m a := by
  rw [Memory.read_writeBytes _ _ _ h, if_neg]
  simp only [length_decodedBytes]
  omega

/-- Settles O12: the frame of everything an operation can leave. -/
theorem operationsWriteOnlyTheirResults : Obligations.OperationsWriteOnlyTheirResults := by
  intro i s t hinv h
  have hleaves := leaves_of_exec hinv h
  obtain ⟨_, _, _, _, _, _, hdout, _⟩ := hinv
  cases hleaves with
  | badCount hi =>
    cases i with
    | encode => exact ⟨_, _, _, rfl⟩
    | decode => exact ⟨_, _, rfl, fun _ _ => rfl⟩
    | encrypt | decrypt => exact ⟨_, _, _, _, rfl, fun _ _ => rfl⟩
    | _ => cases hi
  | badKeyLength | schedule => exact ⟨_, _, _, _, rfl⟩
  | encoded => exact ⟨_, _, _, rfl⟩
  | decoded _ p => exact ⟨_, _, rfl, fun _ => read_writeBytes_decodedBytes p hdout⟩
  | transformed hi hne =>
    cases i with
    | expand | encrypt | decrypt | encode => cases hi
    | decode => exact absurd rfl hne
    | _ => exact ⟨_, _, rfl⟩
  | command hi =>
    rcases hi with rfl | rfl <;> exact ⟨_, _, _, _, rfl, fun _ => read_writeBytes_decodedBytes _ hdout⟩

/-! ## The invariant -/

theorem BufferOk.write {cfg : Config} {space : Space} {m : Memory} {off : Nat} (h : BufferOk cfg space m)
    (hlt : off < space.size cfg) (v : Byte) : BufferOk cfg space (Memory.write m off v) :=
  ⟨Memory.wf_write off v h.1, Memory.within_write v h.2 hlt⟩

theorem BufferOk.write_decodedBytes {cfg : Config} {m : Memory} {n w : Nat} (h : BufferOk cfg .dout m) (hn : n ≤ cfg.W)
    (p : Batch w) : BufferOk cfg .dout (Memory.writeBytes m 0 (decodedBytes n p)) := by
  refine ⟨Memory.wf_writeBytes 0 _ h.1, Memory.within_writeBytes 0 _ h.2 ?_⟩
  simp only [length_decodedBytes, Space.size]
  omega

theorem bufferOk_afterReset (s : State) (space : Space) : BufferOk s.cfg space (Memory.afterReset s space) :=
  ⟨Memory.wf_afterReset s space, Memory.within_afterReset s space⟩

/-- A core that holds no batch, no schedule and no round key. -/
theorem inv_of_no_values {s : State} (hp : s.p = none) (hpvalid : s.pvalid = false)
    (hrk : ∀ rk : Fin 15, s.rk[rk] = none) (hkvalid : s.kvalid = false) (hnr : s.nr = 0) (hseq : s.seq = 0) (hkeybuf : BufferOk s.cfg .keybuf s.keybuf)
    (hdin : BufferOk s.cfg .din s.din) (hdout : BufferOk s.cfg .dout s.dout) : s.Inv := by
  refine ⟨by simp [hp, hpvalid], by simp [State.RoundCountOk, hkvalid, hnr], ⟨fun rk => ?_, fun rk => ?_⟩, hseq,
    hkeybuf, hdin, hdout⟩
  · simp [hrk rk, hkvalid]
  · simp [hrk rk]

theorem inv_resetOf {cfg : Config} {keybuf din dout : Memory} (hkeybuf : BufferOk cfg .keybuf keybuf)
    (hdin : BufferOk cfg .din din) (hdout : BufferOk cfg .dout dout) : (State.resetOf cfg keybuf din dout).Inv :=
  inv_of_no_values rfl rfl (State.resetOf_rk cfg keybuf din dout) rfl rfl rfl hkeybuf hdin hdout

/-- Settles O8: nothing has a value and nothing is valid, so the invariant asks for the buffers alone. -/
theorem resetMeetsTheInvariant : Obligations.ResetMeetsTheInvariant :=
  ⟨inv_resetOf ⟨rfl, rfl⟩ ⟨rfl, rfl⟩ ⟨rfl, rfl⟩, fun _ _ _ _ => inv_resetOf⟩

theorem inv_resetEvent (s : State) : (resetEvent s).Inv := by
  refine inv_of_no_values rfl rfl (resetEvent_rk s) rfl rfl rfl ?_ ?_ ?_
  · rw [resetEvent_keybuf]
    exact bufferOk_afterReset s .keybuf
  · rw [resetEvent_din]
    exact bufferOk_afterReset s .din
  · rw [resetEvent_dout]
    exact bufferOk_afterReset s .dout

theorem roundCount_of_legal {s : State} (h : s.LegalKeyLength) :
    roundCount s.klen = 10 ∨ roundCount s.klen = 12 ∨ roundCount s.klen = 14 := by
  rcases h with e | e | e <;> rw [e] <;> decide

theorem getElem_roundKeys (w : Nat) (words : List KeyWord) (nr : Nat) (rk : Fin 15) : (roundKeys w words nr)[rk] =
    if rk.val ≤ nr then some (Batch.replicated w (roundKeyByte words rk.val)) else none :=
  getElem_tabulate_fin _ rk

theorem inv_schedule {s : State} (hinv : s.Inv) {nr : Nat} (hnr : nr = 10 ∨ nr = 12 ∨ nr = 14) (words : List KeyWord) :
    ((s.setSchedule (BitVec.ofNat 4 nr) (roundKeys s.cfg.W words nr)).setErr .success).Inv := by
  obtain ⟨hvalid, _, _, hseq, hbuffers⟩ := hinv
  have hcount : BitVec.ofNat 4 nr = 10 ∨ BitVec.ofNat 4 nr = 12 ∨ BitVec.ofNat 4 nr = 14 := by
    rcases hnr with rfl | rfl | rfl <;> decide
  have htoNat : (BitVec.ofNat 4 nr).toNat = nr := by
    rcases hnr with rfl | rfl | rfl <;> rfl
  refine ⟨hvalid, hcount, ⟨fun rk => ?_, fun rk => ?_⟩, hseq, hbuffers⟩
  · show (roundKeys s.cfg.W words nr)[rk].isSome = true ↔ true = true ∧ rk.val ≤ (BitVec.ofNat 4 nr).toNat
    rw [getElem_roundKeys, htoNat]
    split_ifs with h <;> simp [h]
  · show keyReplicated (roundKeys s.cfg.W words nr)[rk] = true
    rw [getElem_roundKeys]
    split_ifs
    · exact keyReplicated_some _ |>.mpr (replicated_replicated _ _)
    · rfl

/-- Whatever an operation leaves meets the invariant again. -/
theorem Leaves.inv {i : Instr} {s t : State} (h : Leaves s i t) (hinv : s.Inv) : t.Inv := by
  have ⟨hvalid, hnr, hkeys, hseq, hkeybuf, hdin, hdout⟩ := hinv
  cases h with
  | badCount | badKeyLength => exact hinv
  | schedule hkey => exact inv_schedule hinv (roundCount_of_legal hkey) _
  | encoded => exact ⟨iff_of_true rfl rfl, hnr, hkeys, hseq, hkeybuf, hdin, hdout⟩
  | decoded hcount p => exact ⟨hvalid, hnr, hkeys, hseq, hkeybuf, hdin, hdout.write_decodedBytes hcount.2 p⟩
  | transformed _ _ hpvalid => exact ⟨iff_of_true hpvalid rfl, hnr, hkeys, hseq, hkeybuf, hdin, hdout⟩
  | command _ hcount us =>
    exact ⟨iff_of_true rfl rfl, hnr, hkeys, hseq, hkeybuf, hdin, hdout.write_decodedBytes hcount.2 _⟩

theorem inv_perform {a : HostAction} {s t : State} (hinv : s.Inv) (h : perform a s = .next t) : t.Inv := by
  have ⟨hvalid, hnr, hkeys, hseq, hkeybuf, hdin, hdout⟩ := hinv
  rcases perform_next h with ⟨_, i, _, _, h⟩ | ⟨off, v, _, hlt, rfl⟩ | ⟨_, _, rfl⟩ | ⟨off, v, _, hlt, rfl⟩ |
    ⟨_, _, rfl⟩ | ⟨_, rfl⟩
  · exact (leaves_of_exec hinv h).inv hinv
  · exact ⟨hvalid, hnr, hkeys, hseq, hkeybuf.write hlt v, hdin, hdout⟩
  · exact hinv
  · exact ⟨hvalid, hnr, hkeys, hseq, hkeybuf, hdin.write hlt v, hdout⟩
  · exact hinv
  · exact inv_resetEvent s

/-- Settles O9: an idle core keeps its state, and the invariant is kept by everything an operation can leave, by the
port writes and by the reset event. -/
theorem stepKeepsTheInvariant : Obligations.StepKeepsTheInvariant := by
  intro s t hinv h
  rcases step_next h with ⟨_, rfl⟩ | ⟨a, rest, _, h⟩
  · exact hinv
  · exact inv_perform (s := s.setHost rest) hinv h

/-! ## A host that keeps to the public level -/

/-- With a schedule such an action is neither refused nor does it fault. -/
theorem perform_completes {a : HostAction} {s : State} (hinv : s.Inv) (hk : s.kvalid = true)
    (ha : HostAction.keepsToPublic s.cfg a = true) : ∃ t, perform a s = .next t := by
  have command {w : Byte} {i : Instr} (hd : decode w = .ok i) (hfree : Instr.refusal i s = none) :
      ∃ t, perform (.command w) s = .next t := by
    obtain ⟨t, ht⟩ := exec_completes hinv hfree
    exact ⟨t, (issue_decoded hd).trans ht⟩
  cases a with
  | command w =>
    have hw : w = 0x01 ∨ w = 0x02 ∨ w = 0x03 := by simpa [HostAction.keepsToPublic] using ha
    rcases hw with rfl | rfl | rfl
    · exact command (i := .expand) rfl (refusal_eq_none nofun nofun nofun rfl)
    · exact command (i := .encrypt) rfl (refusal_eq_none nofun nofun (fun _ => hk) rfl)
    · exact command (i := .decrypt) rfl (refusal_eq_none nofun nofun (fun _ => hk) rfl)
  | writeKeybuf off v => exact ⟨_, hostWriteKeybuf_inside (of_decide_eq_true ha : off < 32) v⟩
  | writeDin off v => exact ⟨_, hostWriteDin_inside (of_decide_eq_true ha : off < 16 * s.cfg.W) v⟩
  | writeKlen v | writeCount v => exact ⟨_, rfl⟩
  | reset => cases ha

/-- Settles O49: the step completes, O9 keeps the invariant, no action but reset clears `KVALID`, and what is left of
the script is its tail. -/
theorem publicHostStepKeepsGoing : Obligations.PublicHostStepKeepsGoing := by
  intro s hinv hk hhost
  cases h : s.host with
  | nil => exact ⟨s, step_idle h, hinv, hk, hhost⟩
  | cons a rest =>
    obtain ⟨ha, hrest⟩ := List.forall_mem_cons.mp (h ▸ hhost)
    obtain ⟨t, ht⟩ := perform_completes (s := s.setHost rest) hinv hk ha
    have hreset : a ≠ .reset := by rintro rfl; cases ha
    have hkeeps := perform_keeps hreset ht
    refine ⟨t, (step_cons h).trans ht, inv_perform (s := s.setHost rest) hinv ht, hkeeps.kvalid hk, ?_⟩
    rw [perform_host ht, hkeeps.cfg]
    exact hrest

/-- Settles O21: by induction on the number of steps, each of which is O49's. -/
theorem publicHostIsNeverRefused : Obligations.PublicHostIsNeverRefused := by
  intro s n hinv hk hhost
  induction n generalizing s with
  | zero => exact ⟨s, rfl⟩
  | succ n ih =>
    obtain ⟨t, ht, hinv', hk', hhost'⟩ := publicHostStepKeepsGoing s hinv hk hhost
    obtain ⟨u, hu⟩ := ih t hinv' hk' hhost'
    have hstep : Host.Core.step Sys2Proof.core s = .next t := ht
    exact ⟨u, by simp only [Host.Core.run, hstep, hu]⟩

end Sys2Proof.Machine
end

section
/-! The family `other`, planes: what each operation on `P` does, byte by byte and lane by lane (R91, R92, R103, R106,
R109, R122 to R127, R130). -/

namespace Sys2Proof.Reference

/-! ## Multiplication by the constants of R125 and R126 -/

section
variable (a : Byte)

theorem times_two : times 2 a = xtime a := by
  simp [times, List.range_succ, xtimes]

theorem times_three : times 3 a = xtime a ^^^ a := by
  simp [times, List.range_succ, xtimes, BitVec.xor_comm]

theorem times_nine : times 9 a = xtime (xtime (xtime a)) ^^^ a := by
  simp [times, List.range_succ, xtimes, BitVec.xor_comm]

theorem times_eleven : times 11 a = xtime (xtime (xtime a)) ^^^ xtime a ^^^ a := by
  simp [times, List.range_succ, xtimes, BitVec.xor_comm, BitVec.xor_assoc]

theorem times_thirteen : times 13 a = xtime (xtime (xtime a)) ^^^ xtime (xtime a) ^^^ a := by
  simp [times, List.range_succ, xtimes, BitVec.xor_comm, BitVec.xor_assoc]

theorem times_fourteen : times 14 a = xtime (xtime (xtime a)) ^^^ xtime (xtime a) ^^^ xtime a := by
  simp [times, List.range_succ, xtimes, BitVec.xor_comm, BitVec.xor_assoc]

end

end Sys2Proof.Reference

namespace Sys2Proof.Machine

/-! ## One lane of a slice -/

/-- The 256 cases at width 1. -/
theorem byte_xt_ofByte : ∀ x : Byte, Slice.byte (xt (Slice.ofByte x)) 0 = Reference.xtime x := by decide +kernel

section
variable {w k : Nat} (a b c d : Slice w)

@[simp] theorem byte_xor : Slice.byte (Slice.xor a b) k = Slice.byte a k ^^^ Slice.byte b k := by
  refine BitVec.eq_of_getLsbD_eq fun j hj => ?_
  rw [BitVec.getLsbD_xor, Slice.getLsbD_byte _ _ _ hj, Slice.getLsbD_byte _ _ _ hj, Slice.getLsbD_byte _ _ _ hj,
    Slice.getElem_xor, BitVec.getLsbD_xor]

variable (hk : k < w)
include hk

theorem byte_xt : Slice.byte (xt a) k = Reference.xtime (Slice.byte a k) :=
  (Slice.byte_lanewise (gateMap_lane hk).xt a).trans (byte_xt_ofByte _)

theorem byte_mul9 : Slice.byte (mul9 a) k = Reference.times 9 (Slice.byte a k) := by
  simp only [mul9, byte_xor, byte_xt _ hk, Reference.times_nine]

theorem byte_mul11 : Slice.byte (mul11 a) k = Reference.times 11 (Slice.byte a k) := by
  simp only [mul11, byte_xor, byte_xt _ hk, Reference.times_eleven]

theorem byte_mul13 : Slice.byte (mul13 a) k = Reference.times 13 (Slice.byte a k) := by
  simp only [mul13, byte_xor, byte_xt _ hk, Reference.times_thirteen]

theorem byte_mul14 : Slice.byte (mul14 a) k = Reference.times 14 (Slice.byte a k) := by
  simp only [mul14, byte_xor, byte_xt _ hk, Reference.times_fourteen]

theorem byte_mixByte : Slice.byte (mixByte a b c d) k =
    Reference.times 2 (Slice.byte a k) ^^^ Reference.times 3 (Slice.byte b k) ^^^ Slice.byte c k ^^^
      Slice.byte d k := by
  simp only [mixByte, xt_xor, byte_xor, byte_xt _ hk, Reference.times_two, Reference.times_three, BitVec.xor_assoc]

end

/-- Settles O31: in one lane `XT` is `xtime`, and the sums are those of `times`. -/
theorem constantMultipliersMultiply : Obligations.ConstantMultipliersMultiply := fun w a k hk =>
  ⟨byte_xt a hk, by rw [byte_xor, byte_xt a hk, Reference.times_three], byte_mul9 a hk, byte_mul11 a hk,
    byte_mul13 a hk, byte_mul14 a hk⟩

/-! ## One lane of a batch -/

theorem position_add_four (r c : Nat) : position (r + 4) c = position r c := by
  simp only [position, Nat.add_mod_right]

section
variable {w k : Nat} (p : Batch w)

/-- A plane of the byte at row `r`, column `c` (R21, R22). -/
theorem getElem_eq_sliceAt {r c j : Nat} (hr : r < 4) (hc : c < 4) (hj : j < 8) :
    p[8 * (r + 4 * c) + j] = (Batch.sliceAt p r c)[j] := by
  simp only [Batch.sliceAt, Batch.getElem_slice, position, Nat.mod_eq_of_lt hr, Nat.mod_eq_of_lt hc]

/-- A byte moved within its row, plane by plane. -/
theorem getElem_of_sliceAt_eq {q : Batch w} {r c c' j : Nat} (hr : r < 4) (hc : c < 4) (hj : j < 8)
    (h : Batch.sliceAt q r c = Batch.sliceAt p r c') :
    q[8 * (r + 4 * c) + j] = p[8 * (r + 4 * (c' % 4)) + j] := by
  rw [getElem_eq_sliceAt q hr hc hj, h, Batch.sliceAt_congr p rfl (Nat.mod_mod c' 4).symm,
    getElem_eq_sliceAt p hr (Nat.mod_lt c' (by decide)) hj]

variable (hk : k < w)
include hk

theorem byte_subBytes (b : Fin 16) : Batch.byte (subBytes p) b k = Reference.S (Batch.byte p b k) := by
  simp only [Batch.byte, subBytes, Batch.slice_ofSlices, Batch.getElem_slices_fin, byte_sbox8 hk]

theorem byte_invSubBytes (b : Fin 16) : Batch.byte (invSubBytes p) b k = Reference.invS (Batch.byte p b k) := by
  simp only [Batch.byte, invSubBytes, Batch.slice_ofSlices, Batch.getElem_slices_fin, byte_invSbox8 hk]

theorem byte_mixColumns (r c : Nat) : Batch.byte (mixColumns p) (position r c) k =
    Reference.times 2 (Batch.byte p (position r c) k) ^^^ Reference.times 3 (Batch.byte p (position (r + 1) c) k) ^^^
      Batch.byte p (position (r + 2) c) k ^^^ Batch.byte p (position (r + 3) c) k :=
  (congrArg (Slice.byte · k) (sliceAt_mixColumns p r c)).trans (byte_mixByte _ _ _ _ hk)

theorem byte_invMixColumns (r c : Nat) : Batch.byte (invMixColumns p) (position r c) k =
    Reference.times 14 (Batch.byte p (position r c) k) ^^^ Reference.times 11 (Batch.byte p (position (r + 1) c) k) ^^^
      Reference.times 13 (Batch.byte p (position (r + 2) c) k) ^^^
      Reference.times 9 (Batch.byte p (position (r + 3) c) k) := by
  refine (congrArg (Slice.byte · k) (sliceAt_invMixColumns p r c)).trans ?_
  simp only [byte_xor, byte_mul14 _ hk, byte_mul11 _ hk, byte_mul13 _ hk, byte_mul9 _ hk]
  rfl

end

/-! ## The transforming operations -/

section
variable {s : State} {p : Batch s.cfg.W}

theorem exec_transform {u : UnitOp} {f : Batch s.cfg.W → Batch s.cfg.W} (hu : runUnit u s = transform s f)
    (hl : s.cfg.level = .unitLevel) (hv : s.pvalid = true) (hp : s.p = some p) :
    exec u.toInstr s = .next ((s.setP (f p)).setErr .success) :=
  (exec_toInstr hl u).trans (hu.trans (transform_some hv hp f))

theorem State.Inv.pvalid_of_some (hinv : s.Inv) (hp : s.p = some p) : s.pvalid = true :=
  hinv.1.mpr (by rw [hp]; rfl)

end

/-- Settles O29: each byte position goes through the circuit, which is the table in every lane. -/
theorem subBytesSubstitutesEveryByte : Obligations.SubBytesSubstitutesEveryByte := fun _ p hl hv hp =>
  ⟨subBytes p, exec_transform (u := .subBytes) rfl hl hv hp, fun b _ hk => byte_subBytes p hk b⟩

/-- Settles O30: each byte position goes through the inverse circuit, which is the inverse table in every lane. -/
theorem invSubBytesSubstitutesEveryByte : Obligations.InvSubBytesSubstitutesEveryByte := fun _ p hl hv hp =>
  ⟨invSubBytes p, exec_transform (u := .invSubBytes) rfl hl hv hp, fun b _ hk => byte_invSubBytes p hk b⟩

/-- Settles O32: the byte positions of a row are moved whole. -/
theorem shiftRowsMovesThePlanes : Obligations.ShiftRowsMovesThePlanes := fun _ p hl hv hp =>
  ⟨shiftRows p, exec_transform (u := .shiftRows) rfl hl hv hp, fun r c j =>
    getElem_of_sliceAt_eq p r.isLt c.isLt j.isLt (sliceAt_shiftRows p r c)⟩

/-- Settles O33: the byte positions of a row are moved whole, the other way round. -/
theorem invShiftRowsMovesThePlanes : Obligations.InvShiftRowsMovesThePlanes := fun _ p hl hv hp =>
  ⟨invShiftRows p, exec_transform (u := .invShiftRows) rfl hl hv hp, fun r c j =>
    getElem_of_sliceAt_eq p r.isLt c.isLt j.isLt
      ((sliceAt_invShiftRows p r c).trans (Batch.sliceAt_congr p rfl (by omega)))⟩

/-- Settles O34: row `r` combines the bytes of its column from row `r` on, and the rows go around modulo 4. -/
theorem mixColumnsCombinesEveryColumn : Obligations.MixColumnsCombinesEveryColumn := by
  intro s p hl hv hp
  refine ⟨mixColumns p, exec_transform (u := .mixColumns) rfl hl hv hp, fun c k hk => ?_⟩
  have hrow (r : Nat) := byte_mixColumns p hk r c
  refine ⟨hrow 0, (hrow 1).trans ?_, (hrow 2).trans ?_, (hrow 3).trans ?_⟩
  all_goals
    simp only [Nat.reduceAdd, position_add_four 0, position_add_four 1, position_add_four 2]
    ac_rfl

/-- Settles O35: the same sums with the coefficients of R126, the rows going around modulo 4. -/
theorem invMixColumnsCombinesEveryColumn : Obligations.InvMixColumnsCombinesEveryColumn := by
  intro s p hl hv hp
  refine ⟨invMixColumns p, exec_transform (u := .invMixColumns) rfl hl hv hp, fun c k hk => ?_⟩
  have hrow (r : Nat) := byte_invMixColumns p hk r c
  refine ⟨hrow 0, (hrow 1).trans ?_, (hrow 2).trans ?_, (hrow 3).trans ?_⟩
  all_goals
    simp only [Nat.reduceAdd, position_add_four 0, position_add_four 1, position_add_four 2]
    ac_rfl

theorem roundKeyPlanes_fin (s : State) (rk : Fin 15) : s.roundKeyPlanes rk.val = s.rk[rk] := by
  simp [State.roundKeyPlanes]

/-- Settles O36: with a batch and a schedule that has the round key, the checks pass and the planes are XORed. -/
theorem addRoundKeyXorsEveryPlane : Obligations.AddRoundKeyXorsEveryPlane := by
  intro s p rk hinv hl hp hk hle
  have hv := hinv.pvalid_of_some hp
  obtain ⟨key, hkey⟩ := hinv.roundKeyPlanes_some hk hle
  exact ⟨key, addRoundKey key p, (roundKeyPlanes_fin s rk).symm.trans hkey,
    exec_transform (u := .addRoundKey rk.val) (runUnit_addRoundKey hv hp hk hle hkey) hl hv hp,
    fun i => getElem_tabulate_fin _ i⟩

/-! ## Lanes -/

theorem transforms_of_readsBatch {nr : Nat} {u : UnitOp} (hi : Instr.readsBatch u.toInstr = true)
    (hne : u.toInstr ≠ .decode) (hle : ∀ rk, u.toInstr = .addroundkey rk → rk ≤ nr) : u.Transforms nr := by
  cases u with
  | encode => cases hi
  | decode => exact absurd rfl hne
  | addRoundKey rk => exact hle rk rfl
  | _ => trivial

theorem isUnit_of_readsBatch {i : Instr} (h : Instr.readsBatch i = true) : Instr.isUnit i = true := by
  cases i with
  | expand | encrypt | decrypt | encode => cases h
  | _ => rfl

theorem exec_applyUnit {s : State} {p : Batch s.cfg.W} {u : UnitOp} (hinv : s.Inv) (hl : s.cfg.level = .unitLevel)
    (hp : s.p = some p) (hu : u.Transforms s.nr.toNat) (hk : ∀ rk, u.toInstr = .addroundkey rk → s.kvalid = true) :
    exec u.toInstr s = .next ((s.setP (applyUnit s.roundKey u p)).setErr .success) := by
  have hv := hinv.pvalid_of_some hp
  refine exec_transform (f := applyUnit s.roundKey u) ?_ hl hv hp
  cases u with
  | encode | decode => cases hu
  | addRoundKey rk =>
    exact runUnit_addRoundKey hv hp (hk rk rfl) hu (hinv.roundKeyPlanes_eq_ofBlock (hk rk rfl) hu)
  | _ => rfl

theorem applyUnit_congr {w : Nat} {key key' : Nat → Reference.Block} {u : UnitOp}
    (h : ∀ rk, u.toInstr = .addroundkey rk → key rk = key' rk) (p : Batch w) :
    applyUnit key u p = applyUnit key' u p := by
  cases u with
  | addRoundKey rk => rw [applyUnit, applyUnit, h rk rfl]
  | _ => rfl

/-- Settles O39: in either core, lane `k` of the result is what a core of one lane makes of the block there with the
round key's block. -/
theorem lanesAreIndependent : Obligations.LanesAreIndependent := by
  intro i s s' p p' k k' hi hne hinv hinv' hl hl' hp hp' hkey hlane hlane' hblock
  obtain ⟨u, rfl⟩ := (isUnit_iff_exists_toInstr i).mp (isUnit_of_readsBatch hi)
  have hexec := exec_applyUnit hinv hl hp
    (transforms_of_readsBatch hi hne fun rk e => have ⟨_, _, hle, _, _⟩ := hkey rk e; hle)
    fun rk e => have ⟨hk, _⟩ := hkey rk e; hk
  have hexec' := exec_applyUnit hinv' hl' hp'
    (transforms_of_readsBatch hi hne fun rk e => have ⟨_, _, _, hle, _⟩ := hkey rk e; hle)
    fun rk e => have ⟨_, hk, _⟩ := hkey rk e; hk
  have hsame {w : Nat} (q : Batch w) : applyUnit s.roundKey u q = applyUnit s'.roundKey u q :=
    applyUnit_congr (fun rk e => have ⟨_, _, _, _, h⟩ := hkey rk e; h) q
  refine ⟨_, _, _, _, hexec, hexec', rfl, rfl, ?_⟩
  calc Batch.block (applyUnit s.roundKey u p) k
      = applyBlock s.roundKey [u] (Batch.block p k) := block_applyAll _ hlane [u] p
    _ = applyBlock s'.roundKey [u] (Batch.block p' k') := by
        simp only [hblock, applyBlock, applyAll, hsame]
    _ = Batch.block (applyUnit s'.roundKey u p') k' := (block_applyAll _ hlane' [u] p').symm

/-! ## The codec -/

/-- Settles O24: bit by bit the planes of `encodeBlocks`. -/
theorem encodeFillsThePlanes : Obligations.EncodeFillsThePlanes := by
  intro s hl hc
  refine ⟨_, exec_encode_legal hl hc, fun b j k hk => ?_⟩
  have hdiv : (8 * b.val + j.val) / 8 = b := by omega
  have hmod : (8 * b.val + j.val) % 8 = j := by omega
  rw [getLsbD_encodeBlocks, hdiv, hmod, decide_eq_true hk, Bool.true_and]
  rfl

theorem read_writeBytes_decodedBytes_block {w n k : Nat} {m : Memory} (p : Batch w) (h : Memory.wf m = true)
    (hk : k < n) (b : Fin 16) :
    Memory.read (Memory.writeBytes m 0 (decodedBytes n p)) (blockOffset k b) = Batch.byte p b k := by
  rw [← Memory.getElem_block _ _ _ b.isLt, block_writeBytes_decodedBytes p h hk, Batch.block, getElem_tabulate]

/-- Settles O25: below `COUNT` the bytes are those of the lanes, and beyond them `DOUT` is not written. -/
theorem decodeExtractsTheBlocks : Obligations.DecodeExtractsTheBlocks := by
  intro s p hinv hl hp hc
  have hv := hinv.pvalid_of_some hp
  obtain ⟨_, _, _, _, _, _, hdout, _⟩ := hinv
  refine ⟨_, exec_decode_legal hl hv hp hc, fun k b j hk => ?_, fun a => read_writeBytes_decodedBytes p hdout⟩
  rw [← Batch.getLsbD_byte p b k j j.isLt]
  exact congrArg (·.getLsbD j) (read_writeBytes_decodedBytes_block p hdout hk b)

end Sys2Proof.Machine
end

section
/-! The family `other`, the key schedule: `EXPAND` computes the standard recurrence (R141 to R144). -/

namespace Sys2Proof.Machine

/-! ## The words, one by one -/

section
variable (m : Memory) (nk : Nat)

/-- Word `i` of the expansion, among the first `n`. -/
def wordAt (n i : Nat) : KeyWord := (keyWords m nk n).getD i (Vector.replicate 4 0)

theorem length_keyWords (n : Nat) : (keyWords m nk n).length = n := by
  induction n with
  | zero => rfl
  | succ n ih => simp [keyWords, ih]

/-- One more word leaves those before it. -/
theorem wordAt_succ_of_lt {n i : Nat} (h : i < n) : wordAt m nk (n + 1) i = wordAt m nk n i :=
  List.getD_append _ _ _ _ (by rwa [length_keyWords])

theorem wordAt_succ_self (n : Nat) : wordAt m nk (n + 1) n =
    if n < nk then keyWord m n
    else KeyWord.xor (wordAt m nk n (n - nk)) (keyStep nk n (wordAt m nk n (n - 1))) := by
  rw [wordAt, keyWords, List.getD_append_right _ _ _ _ (by rw [length_keyWords]), length_keyWords, Nat.sub_self]
  rfl

theorem wordAt_eq_of_lt {n i : Nat} (h : i < n) : wordAt m nk n i = wordAt m nk (i + 1) i := by
  induction n, h using Nat.le_induction with
  | base => rfl
  | succ n hle ih => rw [wordAt_succ_of_lt m nk hle, ih]

variable {m nk} {n i : Nat}

theorem wordAt_of_key (hn : i < n) (hi : i < nk) : wordAt m nk n i = keyWord m i := by
  rw [wordAt_eq_of_lt m nk hn, wordAt_succ_self, if_pos hi]

/-- The recurrence of R142 on the words of the machine. -/
theorem wordAt_of_schedule (hpos : 0 < nk) (hn : i < n) (hi : nk ≤ i) : wordAt m nk n i =
    KeyWord.xor (wordAt m nk n (i - nk)) (keyStep nk i (wordAt m nk n (i - 1))) := by
  have hearlier {j : Nat} (hj : j < i) : wordAt m nk i j = wordAt m nk n j := by
    rw [wordAt_eq_of_lt m nk hj, wordAt_eq_of_lt m nk (hj.trans hn)]
  rw [wordAt_eq_of_lt m nk hn, wordAt_succ_self, if_neg (Nat.not_lt.mpr hi), hearlier (by omega), hearlier (by omega)]

end

/-! ## The step of the recurrence -/

theorem subWord_eq (a : KeyWord) :
    subWord a = #v[Reference.S a[0], Reference.S a[1], Reference.S a[2], Reference.S a[3]] := by
  refine Vector.ext fun t ht => ?_
  interval_cases t <;> simp [subWord, sboxByte_eq_table]

/-- The table of `Rcon` is the powers of `x`, for the `m` the key schedule uses (R143). -/
theorem rcon_eq_xtimes {m : Nat} (hpos : 1 ≤ m) (hle : m ≤ 10) : rcon m = Reference.xtimes (m - 1) 1 := by
  interval_cases m <;> decide

theorem getElem_keyWordXor (a b : KeyWord) (t : Fin 4) : (KeyWord.xor a b)[t] = a[t] ^^^ b[t] :=
  getElem_tabulate_fin _ t

theorem keyStep_eq_scheduleStep {nk i : Nat} (h : i % nk = 0 → 1 ≤ i / nk ∧ i / nk ≤ 10) (prev : KeyWord) :
    keyStep nk i prev = Reference.scheduleStep nk i prev := by
  unfold keyStep Reference.scheduleStep
  split_ifs with hzero hfour
  · obtain ⟨hpos, hle⟩ := h hzero
    rw [subWord_eq, rcon_eq_xtimes hpos hle]
    refine Vector.ext fun t ht => ?_
    interval_cases t <;> simp [KeyWord.xor, rotWord]
  · exact subWord_eq prev
  · rfl

/-- The words `EXPAND` computes are the expansion of the key (R142). -/
theorem isSchedule_wordAt (m : Memory) {nk : Nat} (hnk : nk = 4 ∨ nk = 6 ∨ nk = 8) :
    Reference.IsSchedule (fun i => Memory.read m i) nk (4 * (nk + 7)) (wordAt m nk (4 * (nk + 7))) := by
  have hpos : 0 < nk := by omega
  refine ⟨fun i hi t => ?_, fun i hn hi t => ?_⟩
  · rw [wordAt_of_key (by omega) hi]
    exact getElem_tabulate_fin _ t
  · have hround : 1 ≤ i / nk ∧ i / nk ≤ 10 := by
      rcases hnk with rfl | rfl | rfl <;> omega
    rw [wordAt_of_schedule hpos hn hi, getElem_keyWordXor, keyStep_eq_scheduleStep fun _ => hround]

theorem scheduleWords_eq (keybuf : Memory) (klen : Byte) :
    scheduleWords keybuf klen = keyWords keybuf (klen.toNat / 4) (4 * (klen.toNat / 4 + 7)) := by
  rw [scheduleWords, roundCount, keyWordCount]

theorem roundKeyByte_scheduleWords (keybuf : Memory) (klen : Byte) (rk : Nat) (b : Fin 16) :
    roundKeyByte (scheduleWords keybuf klen) rk b =
      (wordAt keybuf (klen.toNat / 4) (4 * (klen.toNat / 4 + 7)) (4 * rk + b.val / 4))[b.val % 4] := by
  rw [scheduleWords_eq]
  rfl

/-- Settles O23: the file is `roundKeys` of the words of the recurrence, and its planes are the bits of their bytes. -/
theorem expandBuildsTheSchedule : Obligations.ExpandBuildsTheSchedule := by
  intro s hkey
  have hnk : s.klen.toNat / 4 = 4 ∨ s.klen.toNat / 4 = 6 ∨ s.klen.toNat / 4 = 8 := by
    rcases hkey with e | e | e <;> rw [e] <;> decide
  have hfile := getElem_roundKeys s.cfg.W (scheduleWords s.keybuf s.klen) (roundCount s.klen)
  refine ⟨_, _, exec_expand_good ((goodKeyLength_iff s).mpr hkey), isSchedule_wordAt s.keybuf hnk, fun rk =>
    ⟨fun hle => ⟨_, (hfile rk).trans (if_pos hle), fun b j => ?_⟩, fun hlt =>
      (hfile rk).trans (if_neg (Nat.not_le.mpr hlt))⟩⟩
  have hdiv : (8 * b.val + j.val) / 8 = b := by omega
  have hmod : (8 * b.val + j.val) % 8 = j := by omega
  rw [Batch.getElem_replicated]
  simp only [hdiv, hmod, Fin.eta, roundKeyByte_scheduleWords]

end Sys2Proof.Machine
end

section
/-! The family `other`, the ciphers: the expansion lists entry by entry (R160 to R163), and each list as the byte-level
cipher of the block in every lane (R161 to R163). -/

namespace Sys2Proof.Machine

/-! ## The expansion lists by index -/

section
variable {α : Type} {f : Nat → List α} (hf : ∀ i, (f i).length = 4)
include hf

theorem length_flatMap_rounds (n : Nat) : ((List.range n).flatMap f).length = 4 * n := by
  simp [List.length_flatMap, hf, Nat.mul_comm]

/-- Entry `4i + j` of a list of rounds of four entries is entry `j` of round `i`. -/
theorem getElem?_flatMap_rounds {n i j : Nat} (hi : i < n) (hj : j < 4) :
    ((List.range n).flatMap f)[4 * i + j]? = (f i)[j]? := by
  have hlen := length_flatMap_rounds hf
  induction n with
  | zero => omega
  | succ n ih =>
    rw [List.range_succ, List.flatMap_append, List.flatMap_singleton]
    by_cases h : i < n
    · rw [List.getElem?_append_left (by rw [hlen]; omega), ih h]
    · obtain rfl : i = n := by omega
      rw [List.getElem?_append_right (by rw [hlen]; omega), hlen, Nat.add_sub_cancel_left]

/-- The entries of a list of two entries, `nr - 1` rounds and four entries, the shape of both expansions. -/
theorem expansion_entries {nr : Nat} (hnr : 1 ≤ nr) (a b c d e g : α) :
    let l := [a, b] ++ (List.range (nr - 1)).flatMap f ++ [c, d, e, g]
    l.length = 4 * nr + 2 ∧ l[0]? = some a ∧ l[1]? = some b ∧
      (∀ r, 1 ≤ r → r < nr → l[4 * r - 2]? = (f (r - 1))[0]? ∧ l[4 * r - 1]? = (f (r - 1))[1]? ∧
        l[4 * r]? = (f (r - 1))[2]? ∧ l[4 * r + 1]? = (f (r - 1))[3]?) ∧
      l[4 * nr - 2]? = some c ∧ l[4 * nr - 1]? = some d ∧ l[4 * nr]? = some e ∧ l[4 * nr + 1]? = some g := by
  obtain ⟨n, rfl⟩ : ∃ n, nr = n + 1 := ⟨nr - 1, by omega⟩
  have hlen := length_flatMap_rounds hf n
  refine ⟨by simp [hlen]; omega, rfl, rfl, fun r hpos hr => ?_, ?_⟩
  · have entry {i : Nat} (j : Nat) (hj : j < 4) (hi : i = 4 * (r - 1) + j + 2) :
        ([a, b] ++ (List.range n).flatMap f ++ [c, d, e, g])[i]? = (f (r - 1))[j]? := by
      rw [← getElem?_flatMap_rounds hf (show r - 1 < n by omega) hj, hi,
        List.getElem?_append_left (by simp [hlen]; omega), List.getElem?_append_right (by simp)]
      rfl
    exact ⟨entry 0 (by omega) (by omega), entry 1 (by omega) (by omega), entry 2 (by omega) (by omega),
      entry 3 (by omega) (by omega)⟩
  · simp [Nat.mul_succ, hlen]

end

/-- Settles O40: both lists have the shape of `expansion_entries`, and the round state is division. -/
theorem expansionListsAreTheSpecs : Obligations.ExpansionListsAreTheSpecs := by
  intro nr hnr
  obtain ⟨elen, e0, e1, eround, ec, ed, ee, eg⟩ := expansion_entries (f := fun i => encryptRound (i + 1))
    (fun _ => rfl) hnr .encode (.addRoundKey 0) .subBytes .shiftRows (.addRoundKey nr) .decode
  obtain ⟨dlen, d0, d1, dround, dc, dd, de, dg⟩ := expansion_entries (f := fun i => decryptRound (nr - 1 - i))
    (fun _ => rfl) hnr .encode (.addRoundKey nr) .invShiftRows .invSubBytes (.addRoundKey 0) .decode
  have hround (r seq : Nat) (_ : 1 ≤ r) (_ : r < nr) (_ : 4 * r - 2 ≤ seq) (_ : seq ≤ 4 * r + 1) :
      roundState seq = r := by
    rw [roundState]
    omega
  have hlast (seq : Nat) (_ : 4 * nr - 2 ≤ seq) (_ : seq ≤ 4 * nr) : roundState seq = nr := by
    rw [roundState]
    omega
  refine ⟨elen, dlen, e0, e1, fun r hpos hr => ?_, ec, ed, ee, eg, d0, d1, fun m hpos hm => ?_, dc, dd, de, dg, rfl,
    hround, hlast⟩
  · have hkey : r - 1 + 1 = r := by omega
    have h := eround r hpos hr
    rwa [hkey] at h
  · have hkey : nr - 1 - (m - 1) = nr - m := by omega
    have h := dround m hpos hm
    rwa [hkey] at h

/-! ## The byte-level operations, block by block -/

/-- A block given row by row, column by column. -/
theorem Batch.block_eq_ofRows {w k : Nat} {q : Batch w} {f : Nat → Nat → Byte}
    (h : ∀ r c, r < 4 → c < 4 → Batch.byte q (position r c) k = f r c) :
    Batch.block q k = Reference.Block.ofRows f := by
  refine Vector.ext fun b hb => ?_
  rw [Batch.block, getElem_tabulate, Reference.Block.ofRows, getElem_tabulate,
    ← h (b % 4) (b / 4) (by omega) (by omega)]
  exact congrArg (Batch.byte q · k) (position_row_column ⟨b, hb⟩).symm

theorem at_block {w : Nat} (p : Batch w) (k r c : Nat) :
    Reference.Block.at (Batch.block p k) r c = Batch.byte p (position r c) k := by
  rw [Reference.Block.at, Batch.block, getElem_tabulate]
  rfl

/-- What a unit operation makes of one block, by the byte-level formulas of R103, R106 and R123 to R127. -/
def applyBytes (key : Nat → Reference.Block) : UnitOp → Reference.Block → Reference.Block
  | .encode, a | .decode, a => a
  | .subBytes, a => Reference.subBytes a
  | .invSubBytes, a => Reference.invSubBytes a
  | .shiftRows, a => Reference.shiftRows a
  | .invShiftRows, a => Reference.invShiftRows a
  | .mixColumns, a => Reference.mixColumns a
  | .invMixColumns, a => Reference.invMixColumns a
  | .addRoundKey rk, a => Reference.addRoundKey (key rk) a

/-- The unit operations of a list on one block, the first one first. -/
def applyAllBytes (key : Nat → Reference.Block) (us : List UnitOp) (a : Reference.Block) : Reference.Block :=
  us.foldl (fun a u => applyBytes key u a) a

section
variable {w k : Nat} (hk : k < w) (p : Batch w)
include hk

theorem block_subBytes : Batch.block (subBytes p) k = Reference.subBytes (Batch.block p k) :=
  Batch.block_eq_ofRows fun r c _ _ => by rw [at_block, byte_subBytes p hk]

theorem block_invSubBytes : Batch.block (invSubBytes p) k = Reference.invSubBytes (Batch.block p k) :=
  Batch.block_eq_ofRows fun r c _ _ => by rw [at_block, byte_invSubBytes p hk]

theorem block_mixColumns : Batch.block (mixColumns p) k = Reference.mixColumns (Batch.block p k) :=
  Batch.block_eq_ofRows fun r c _ _ => by simp only [at_block, byte_mixColumns p hk]

theorem block_invMixColumns : Batch.block (invMixColumns p) k = Reference.invMixColumns (Batch.block p k) :=
  Batch.block_eq_ofRows fun r c _ _ => by simp only [at_block, byte_invMixColumns p hk]

omit hk in
theorem block_shiftRows : Batch.block (shiftRows p) k = Reference.shiftRows (Batch.block p k) :=
  Batch.block_eq_ofRows fun r c _ _ => by
    rw [at_block]
    exact congrArg (Slice.byte · k) (sliceAt_shiftRows p r c)

omit hk in
theorem block_invShiftRows : Batch.block (invShiftRows p) k = Reference.invShiftRows (Batch.block p k) :=
  Batch.block_eq_ofRows fun r c hr _ => by
    rw [at_block]
    exact congrArg (Slice.byte · k) ((sliceAt_invShiftRows p r c).trans (Batch.sliceAt_congr p rfl (by omega)))

theorem block_addRoundKey (key : Reference.Block) :
    Batch.block (addRoundKey (Batch.ofBlock w key) p) k = Reference.addRoundKey key (Batch.block p k) := by
  refine Vector.ext fun b hb => ?_
  have hslice : Batch.slice (addRoundKey (Batch.ofBlock w key) p) ⟨b, hb⟩ =
      Slice.xor (Batch.slice p ⟨b, hb⟩) (Batch.slice (Batch.ofBlock w key) ⟨b, hb⟩) :=
    Vector.ext fun j hj => by simp [addRoundKey]
  calc (Batch.block (addRoundKey (Batch.ofBlock w key) p) k)[b]
      = Batch.byte (addRoundKey (Batch.ofBlock w key) p) ⟨b, hb⟩ k := getElem_tabulate _ b hb
    _ = Batch.byte p ⟨b, hb⟩ k ^^^ Batch.byte (Batch.ofBlock w key) ⟨b, hb⟩ k := by
        rw [Batch.byte, hslice, byte_xor, Batch.byte, Batch.byte]
    _ = (Batch.block p k)[b] ^^^ (Batch.block (Batch.ofBlock w key) k)[b] := by
        rw [Batch.block, Batch.block, getElem_tabulate, getElem_tabulate]
    _ = (Reference.addRoundKey key (Batch.block p k))[b] := by
        rw [Batch.block_ofBlock hk, Reference.addRoundKey, getElem_tabulate]
        rfl

theorem block_applyUnit (key : Nat → Reference.Block) (u : UnitOp) :
    Batch.block (applyUnit key u p) k = applyBytes key u (Batch.block p k) := by
  cases u with
  | encode | decode => rfl
  | subBytes => exact block_subBytes hk p
  | invSubBytes => exact block_invSubBytes hk p
  | shiftRows => exact block_shiftRows p
  | invShiftRows => exact block_invShiftRows p
  | mixColumns => exact block_mixColumns hk p
  | invMixColumns => exact block_invMixColumns hk p
  | addRoundKey rk => exact block_addRoundKey hk p (key rk)

theorem block_applyAll_eq_bytes (key : Nat → Reference.Block) (us : List UnitOp) :
    Batch.block (applyAll key us p) k = applyAllBytes key us (Batch.block p k) := by
  induction us generalizing p with
  | nil => rfl
  | cons u us ih => rw [applyAll, ih, block_applyUnit hk p, applyAllBytes, applyAllBytes, List.foldl_cons]

end

/-! ## The two ciphers -/

section
variable (key : Nat → Reference.Block) (nr : Nat) (a : Reference.Block)

theorem applyAllBytes_append (us vs : List UnitOp) :
    applyAllBytes key (us ++ vs) a = applyAllBytes key vs (applyAllBytes key us a) :=
  List.foldl_append

theorem applyAllBytes_encryptRounds (n : Nat) :
    applyAllBytes key ((List.range n).flatMap fun i => encryptRound (i + 1)) a = Reference.fullRounds key n a := by
  induction n with
  | zero => rfl
  | succ n ih =>
    rw [List.range_succ, List.flatMap_append, List.flatMap_singleton, applyAllBytes_append, ih]
    rfl

theorem applyAllBytes_encryptMiddle : applyAllBytes key (encryptMiddle nr) a = Reference.cipher nr key a := by
  show applyAllBytes key (_ ++ _) (Reference.addRoundKey (key 0) a) = _
  rw [applyAllBytes_append, applyAllBytes_encryptRounds]
  rfl

theorem applyAllBytes_decryptRounds (n : Nat) :
    applyAllBytes key ((List.range n).flatMap fun i => decryptRound (nr - 1 - i)) a =
      Reference.mirroredRounds nr key n a := by
  induction n with
  | zero => rfl
  | succ n ih =>
    rw [List.range_succ, List.flatMap_append, List.flatMap_singleton, applyAllBytes_append, ih, Nat.sub_right_comm]
    rfl

theorem applyAllBytes_decryptMiddle :
    applyAllBytes key (undo (encryptMiddle nr)) a = Reference.invCipher nr key a := by
  have hmiddle : undo (encryptMiddle nr) = .addRoundKey nr ::
      ((List.range (nr - 1)).flatMap (fun i => decryptRound (nr - 1 - i)) ++
        [.invShiftRows, .invSubBytes, .addRoundKey 0]) := by
    refine List.append_cancel_right (bs := [.decode]) ?_
    simpa [betweenCodec, decryptList] using (decryptList_eq nr).symm
  rw [hmiddle]
  show applyAllBytes key (_ ++ _) (Reference.addRoundKey (key nr) a) = _
  rw [applyAllBytes_append, applyAllBytes_decryptRounds]
  rfl

end

/-! ## The two commands -/

/-- The next state of a command, block by block and lane by lane, from what its entries make of one block. -/
theorem afterCommand_spec {s : State} (hs : s.Accepts) (hdout : Memory.wf s.dout = true) {us : List UnitOp}
    {cipher : Reference.Block → Reference.Block} (hcipher : ∀ a, applyAllBytes s.roundKey us a = cipher a) :
    ∃ (p : Batch s.cfg.W) (m : Memory),
      s.afterCommand us = (((s.setP p).setPvalid true).setDout m).setErr .success ∧
      (∀ k, k < s.count.toNat → Memory.block m k = cipher (Memory.block s.din k)) ∧
      (∀ k, k < s.cfg.W → Batch.block p k =
        cipher (if k < s.count.toNat then Memory.block s.din k else Vector.replicate 16 0)) ∧
      ∀ a, 16 * s.count.toNat ≤ a → Memory.read m a = Memory.read s.dout a := by
  have hlane (k : Nat) (hk : k < s.cfg.W) : Batch.block (s.transformed us) k =
      cipher (if k < s.count.toNat then Memory.block s.din k else Vector.replicate 16 0) := by
    rw [State.transformed, block_applyAll_eq_bytes hk, hcipher, block_encodeBlocks _ _ hk]
  refine ⟨s.transformed us, _, rfl, fun k hk => ?_, hlane, fun a => read_writeBytes_decodedBytes _ hdout⟩
  rw [block_writeBytes_decodedBytes _ hdout hk, hlane k (hk.trans_le hs.legalCount.2), if_pos hk]

/-- Settles O42: the entries of `ENCRYPT` are, on one block, the cipher. -/
theorem encryptComputesTheCipher : Obligations.EncryptComputesTheCipher := by
  intro s hinv hk hc
  have hs := hinv.accepts hk hc
  obtain ⟨_, _, _, _, _, _, hdout, _⟩ := hinv
  obtain ⟨p, m, hstate, hspec⟩ := afterCommand_spec hs hdout (applyAllBytes_encryptMiddle s.roundKey s.nr.toNat)
  exact ⟨p, m, by rw [exec_encrypt_accepted hs, hstate], hspec⟩

/-- Settles O43: the entries of `DECRYPT` are, on one block, the inverse cipher. -/
theorem decryptComputesTheInverseCipher : Obligations.DecryptComputesTheInverseCipher := by
  intro s hinv hk hc
  have hs := hinv.accepts hk hc
  obtain ⟨_, _, _, _, _, _, hdout, _⟩ := hinv
  obtain ⟨p, m, hstate, hspec⟩ := afterCommand_spec hs hdout (applyAllBytes_decryptMiddle s.roundKey s.nr.toNat)
  exact ⟨p, m, by rw [exec_decrypt_accepted hs, hstate], hspec⟩

/-- Settles O46: the two states have the same `RK`, `NR`, `COUNT` and `DIN`, of which alone a command's batch is made,
and `DOUT` below `16*COUNT` is that batch decoded. -/
theorem publicResultsReadOnlyTheirOperands : Obligations.PublicResultsReadOnlyTheirOperands := by
  intro i s p pv e klen keybuf dout s' hi hinv hinv' hk hc
  have hs := hinv.accepts hk hc
  have hs' : s'.Accepts := hinv'.accepts hk hc
  obtain ⟨us, hexec, hexec'⟩ : ∃ us, exec i s = .next (s.afterCommand us) ∧ exec i s' = .next (s'.afterCommand us) := by
    rcases hi with rfl | rfl
    · exact ⟨_, exec_encrypt_accepted hs, exec_encrypt_accepted hs'⟩
    · exact ⟨_, exec_decrypt_accepted hs, exec_decrypt_accepted hs'⟩
  obtain ⟨_, _, _, _, _, _, hdout, _⟩ := hinv
  obtain ⟨_, _, _, _, _, _, hdout', _⟩ := hinv'
  refine ⟨s.afterCommand us, s'.afterCommand us, s.transformed us, s'.transformed us, hexec, hexec',
    fun a ha => ?_, rfl, rfl, fun _ _ => rfl⟩
  refine Memory.read_eq_of_block_eq (fun k hk => ?_) ha
  rw [block_dout_afterCommand hs hdout hk, block_dout_afterCommand hs' hdout' hk]
  rfl

end Sys2Proof.Machine
end

section
/-! The family `other`, what a command executes: the counted circuits are the ones `exec` runs, and their counts are
those of R218's table. -/

namespace Sys2Proof.Machine

/-! ## What the counted circuits compute -/

/-- A unit operation that transforms `P`, evaluated gate by gate. -/
theorem exec_toInstr_byGates {op : UnitOp} {s : State} {p key : Batch s.cfg.W} (hl : s.cfg.level = .unitLevel)
    (hv : s.pvalid = true) (hp : s.p = some p) (hencode : op ≠ .encode) (hdecode : op ≠ .decode)
    (hkey : ∀ rk, op = .addRoundKey rk →
      s.kvalid = true ∧ rk ≤ s.nr.toNat ∧ s.roundKeyPlanes rk = some key) :
    exec op.toInstr s = .next ((s.setP (op.byGates key p)).setErr .success) := by
  rw [unitByGates_eq]
  cases op with
  | encode => exact absurd rfl hencode
  | decode => exact absurd rfl hdecode
  | addRoundKey rk =>
    obtain ⟨hk, hle, hplanes⟩ := hkey rk rfl
    exact exec_transform (u := .addRoundKey rk) (runUnit_addRoundKey hv hp hk hle hplanes) hl hv hp
  | subBytes => exact exec_transform (u := .subBytes) rfl hl hv hp
  | invSubBytes => exact exec_transform (u := .invSubBytes) rfl hl hv hp
  | shiftRows => exact exec_transform (u := .shiftRows) rfl hl hv hp
  | invShiftRows => exact exec_transform (u := .invShiftRows) rfl hl hv hp
  | mixColumns => exact exec_transform (u := .mixColumns) rfl hl hv hp
  | invMixColumns => exact exec_transform (u := .invMixColumns) rfl hl hv hp

/-- `EXPAND` with the schedule computed gate by gate. -/
theorem exec_expand_byGates {s : State} (hkey : s.LegalKeyLength) :
    exec .expand s = .next ((s.setSchedule (BitVec.ofNat 4 (roundCount s.klen))
      (roundKeys s.cfg.W (expandByGates s.keybuf s.klen).1 (roundCount s.klen))).setErr .success) := by
  rw [expandByGates_fst, exec_expand_good ((goodKeyLength_iff s).mpr hkey)]

/-! ## The moves of the codec -/

/-- The moves are the triples of a block below `n`, a byte and a bit. -/
theorem codecMoves_eq_product (n : Nat) : codecMoves n = List.range n ×ˢ (List.finRange 16 ×ˢ List.finRange 8) := by
  simp [codecMoves, SProd.sprod, List.product, List.map_flatMap, Function.comp_def]

theorem mem_codecMoves {n k : Nat} {b : Fin 16} {j : Fin 8} : (k, b, j) ∈ codecMoves n ↔ k < n := by
  simp [codecMoves_eq_product]

theorem nodup_codecMoves (n : Nat) : (codecMoves n).Nodup := by
  rw [codecMoves_eq_product]
  exact List.nodup_range.product ((List.nodup_finRange 16).product (List.nodup_finRange 8))

theorem length_codecMoves (n : Nat) : (codecMoves n).length = 128 * n := by
  simp only [codecMoves_eq_product, List.length_product, List.length_range, List.length_finRange]
  omega

/-- An offset that no move writes lies beyond the blocks. -/
theorem le_of_ne_codecMoves {n a : Nat}
    (h : ∀ (k : Nat) (b : Fin 16) (j : Fin 8), (k, b, j) ∈ codecMoves n → a ≠ 16 * k + b.val) : 16 * n ≤ a := by
  by_contra hlt
  exact h (a / 16) ⟨a % 16, by omega⟩ 0 (mem_codecMoves.mpr (by omega)) (Nat.div_add_mod a 16).symm

/-- The bits that `ENCODE` and `DECODE` carry over are the codec's moves (R91, R92). -/
theorem codec_moves_bits {s : State} (hinv : s.Inv) (hl : s.cfg.level = .unitLevel) (hc : s.LegalCount) :
    (∃ q : Batch s.cfg.W, exec .encode s = .next (((s.setP q).setPvalid true).setErr .success) ∧
      ∀ (k : Nat) (b : Fin 16) (j : Fin 8), k < s.cfg.W → (q[8 * b.val + j.val]).getLsbD k =
        (decide ((k, b, j) ∈ codecMoves s.count.toNat) && (Memory.read s.din (16 * k + b.val)).getLsbD j.val)) ∧
    ∀ p : Batch s.cfg.W, s.p = some p → ∃ m : Memory, exec .decode s = .next ((s.setDout m).setErr .success) ∧
      (∀ (k : Nat) (b : Fin 16) (j : Fin 8), (k, b, j) ∈ codecMoves s.count.toNat →
        (Memory.read m (16 * k + b.val)).getLsbD j.val = (p[8 * b.val + j.val]).getLsbD k) ∧
      ∀ a, (∀ (k : Nat) (b : Fin 16) (j : Fin 8), (k, b, j) ∈ codecMoves s.count.toNat → a ≠ 16 * k + b.val) →
        Memory.read m a = Memory.read s.dout a := by
  refine ⟨?_, fun p hp => ?_⟩
  · obtain ⟨q, hexec, hbits⟩ := encodeFillsThePlanes s hl hc
    exact ⟨q, hexec, fun k b j hk => by simp only [hbits b j k hk, mem_codecMoves]⟩
  · obtain ⟨m, hexec, hbits, hframe⟩ := decodeExtractsTheBlocks s p hinv hl hp hc
    exact ⟨m, hexec, fun k b j hmove => hbits k b j (mem_codecMoves.mp hmove), fun a h =>
      hframe a (le_of_ne_codecMoves h)⟩

/-! ## The traces of the unit operations -/

theorem countP_repeatTrace (q : Primitive → Bool) (n : Nat) (t : List Primitive) :
    (repeatTrace n t).countP q = n * t.countP q := by
  simp [repeatTrace, List.countP_flatten]

theorem repeatTrace_replicate (n m : Nat) (p : Primitive) :
    repeatTrace n (List.replicate m p) = List.replicate (n * m) p :=
  List.flatten_replicate_replicate

section
variable (count : Nat)

theorem trace_mixColumns : UnitOp.trace count .mixColumns = List.replicate 560 .xor := by
  have hbyte : mixByteCircuit.trace = List.replicate 35 .xor := by decide
  rw [UnitOp.trace, hbyte, repeatTrace_replicate]

theorem trace_invMixColumns : UnitOp.trace count .invMixColumns = List.replicate 1424 .xor := by
  have hpowers : powersCircuit.trace = List.replicate 9 .xor := by decide
  have hsum : invMixSumCircuit.trace = List.replicate 80 .xor := by decide
  rw [UnitOp.trace, hpowers, hsum, repeatTrace_replicate, repeatTrace_replicate, ← List.replicate_add,
    repeatTrace_replicate]

theorem trace_addRoundKey (rk : Nat) : UnitOp.trace count (.addRoundKey rk) = List.replicate 128 .xor := by
  rw [UnitOp.trace, Circuit.trace, addRoundKeyCircuit, List.map_map]
  exact List.map_const'.trans (by rw [List.length_finRange])

/-- The codec's trace is one move for each bit it carries over. -/
theorem map_move_codecMoves :
    ((codecMoves count).map fun _ => Primitive.move) = List.replicate (128 * count) .move := by
  rw [List.map_const', length_codecMoves]

theorem trace_encode : UnitOp.trace count .encode = List.replicate (128 * count) .move := map_move_codecMoves count

theorem trace_decode : UnitOp.trace count .decode = List.replicate (128 * count) .move := map_move_codecMoves count

end

/-- The gates of 16 evaluations of `S`, by kind. -/
theorem count_trace_subBytes (p : Primitive) : (UnitOp.trace 1 .subBytes).count p =
    match p with | .and => 512 | .xor => 1264 | .xnor => 64 | .not => 0 | .move => 0 := by
  rw [UnitOp.trace, List.count, countP_repeatTrace]
  cases p <;> decide

/-- The gates of 16 evaluations of the inverse, by kind. -/
theorem count_trace_invSubBytes (p : Primitive) : (UnitOp.trace 1 .invSubBytes).count p =
    match p with | .and => 512 | .xor => 1776 | .xnor => 64 | .not => 64 | .move => 0 := by
  rw [UnitOp.trace, List.count, countP_repeatTrace, List.countP_append, List.countP_append]
  cases p <;> decide

/-! ## The traces of the commands -/

section
variable {g : UnitOp → Nat}

/-- The cost of `n` rounds that cost `d` each. -/
theorem sum_map_flatMap_rounds {f : Nat → List UnitOp} {d : Nat} (hd : ∀ i, ((f i).map g).sum = d) (n : Nat) :
    (((List.range n).flatMap f).map g).sum = n * d := by
  induction n with
  | zero => simp
  | succ n ih => simp [List.range_succ, List.flatMap_append, ih, hd, Nat.succ_mul]

variable {c : Nat} (hkey : ∀ rk, g (.addRoundKey rk) = c) (n : Nat)
include hkey

/-- What the entries of `ENCRYPT` cost together when every `ADDROUNDKEY` costs the same. -/
theorem sum_map_encryptList : ((encryptList (n + 1)).map g).sum = g .encode + g .decode +
    (n + 1) * (g .subBytes + g .shiftRows) + n * g .mixColumns + (n + 2) * c := by
  have hround (i : Nat) : ((encryptRound (i + 1)).map g).sum = g .subBytes + g .shiftRows + g .mixColumns + c := by
    simp [encryptRound, hkey, Nat.add_assoc]
  simp only [encryptList, Nat.add_sub_cancel, List.map_append, List.sum_append, sum_map_flatMap_rounds hround,
    List.map_cons, List.map_nil, List.sum_cons, List.sum_nil, hkey]
  ring

/-- What the entries of `DECRYPT` cost together when every `ADDROUNDKEY` costs the same. -/
theorem sum_map_decryptList : ((decryptList (n + 1)).map g).sum = g .encode + g .decode +
    (n + 1) * (g .invSubBytes + g .invShiftRows) + n * g .invMixColumns + (n + 2) * c := by
  have hround (i : Nat) : ((decryptRound (n - i)).map g).sum =
      g .invSubBytes + g .invShiftRows + g .invMixColumns + c := by
    simp [decryptRound, hkey]
    omega
  simp only [decryptList, Nat.add_sub_cancel, List.map_append, List.sum_append, sum_map_flatMap_rounds hround,
    List.map_cons, List.map_nil, List.sum_cons, List.sum_nil, hkey]
  ring

end

/-- How many primitive operations of a unit operation satisfy `q`. -/
def UnitOp.cost (q : Primitive → Bool) (count : Nat) (u : UnitOp) : Nat := (u.trace count).countP q

section
variable (q : Primitive → Bool) (n count : Nat)

theorem cost_addRoundKey (rk : Nat) : UnitOp.cost q count (.addRoundKey rk) = if q .xor then 128 else 0 := by
  rw [UnitOp.cost, trace_addRoundKey, List.countP_replicate]

theorem countP_encryptTrace : (encryptTrace (n + 1) count).countP q =
    UnitOp.cost q count .encode + UnitOp.cost q count .decode +
      (n + 1) * (UnitOp.cost q count .subBytes + UnitOp.cost q count .shiftRows) +
      n * UnitOp.cost q count .mixColumns + (n + 2) * if q .xor then 128 else 0 :=
  List.countP_flatMap.trans (sum_map_encryptList (cost_addRoundKey q count) n)

theorem countP_decryptTrace : (decryptTrace (n + 1) count).countP q =
    UnitOp.cost q count .encode + UnitOp.cost q count .decode +
      (n + 1) * (UnitOp.cost q count .invSubBytes + UnitOp.cost q count .invShiftRows) +
      n * UnitOp.cost q count .invMixColumns + (n + 2) * if q .xor then 128 else 0 :=
  List.countP_flatMap.trans (sum_map_decryptList (cost_addRoundKey q count) n)

theorem cost_encode : UnitOp.cost q count .encode = if q .move then 128 * count else 0 := by
  rw [UnitOp.cost, trace_encode, List.countP_replicate]

theorem cost_decode : UnitOp.cost q count .decode = if q .move then 128 * count else 0 := by
  rw [UnitOp.cost, trace_decode, List.countP_replicate]

theorem cost_mixColumns : UnitOp.cost q count .mixColumns = if q .xor then 560 else 0 := by
  rw [UnitOp.cost, trace_mixColumns, List.countP_replicate]

theorem cost_invMixColumns : UnitOp.cost q count .invMixColumns = if q .xor then 1424 else 0 := by
  rw [UnitOp.cost, trace_invMixColumns, List.countP_replicate]

end

section
variable (count : Nat)

theorem cost_move_subBytes : UnitOp.cost (· == .move) count .subBytes = 0 := count_trace_subBytes .move

theorem cost_move_invSubBytes : UnitOp.cost (· == .move) count .invSubBytes = 0 := count_trace_invSubBytes .move

theorem cost_gates_subBytes : UnitOp.cost (· ≠ .move) count .subBytes = 1840 := by
  rw [UnitOp.cost, UnitOp.trace, countP_repeatTrace]
  decide +kernel

theorem cost_gates_invSubBytes : UnitOp.cost (· ≠ .move) count .invSubBytes = 2416 := by
  rw [UnitOp.cost, UnitOp.trace, countP_repeatTrace]
  decide +kernel

theorem cost_shiftRows (q : Primitive → Bool) : UnitOp.cost q count .shiftRows = 0 := rfl

theorem cost_invShiftRows (q : Primitive → Bool) : UnitOp.cost q count .invShiftRows = 0 := rfl

end

/-- The traces of the two commands: the moves of the codec's two entries, and the gates of the entries between. -/
theorem counts_of_commands (n count : Nat) :
    (encryptTrace (n + 1) count).count .move = 256 * count ∧
    ((encryptTrace (n + 1) count).filter (· ≠ .move)).length = (n + 1) * 1840 + n * 560 + (n + 2) * 128 ∧
    (decryptTrace (n + 1) count).count .move = 256 * count ∧
    ((decryptTrace (n + 1) count).filter (· ≠ .move)).length = (n + 1) * 2416 + n * 1424 + (n + 2) * 128 := by
  simp only [← List.countP_eq_length_filter, List.count, countP_encryptTrace, countP_decryptTrace, cost_encode,
    cost_decode, cost_mixColumns, cost_invMixColumns, cost_move_subBytes, cost_move_invSubBytes, cost_gates_subBytes,
    cost_gates_invSubBytes, cost_shiftRows, cost_invShiftRows]
  simp
  omega

/-! ## The evaluations of `S` -/

theorem countedWords_snd (m : Memory) (nk n : Nat) : (countedWords m nk n).2 =
    ((List.range n).map fun i =>
      if i < nk then 0 else if i % nk = 0 ∨ (nk = 8 ∧ i % nk = 4) then 4 else 0).sum := by
  induction n with
  | zero => rfl
  | succ n ih => simp [countedWords_succ_snd, ih, List.range_succ]

/-- The evaluations of `S` for the three key lengths, whatever the key (R145). -/
theorem evaluations_of_expand (keybuf : Memory) : (expandByGates keybuf 16).2 = 40 ∧ (expandByGates keybuf 24).2 = 32 ∧
    (expandByGates keybuf 32).2 = 52 := by
  simp only [expandByGates, countedWords_snd]
  decide

/-- Settles O48: the laws of the traces say what the circuits compute, and the counts are sums over the lists. -/
theorem primitiveCountsAreTheSpecs : Obligations.PrimitiveCountsAreTheSpecs :=
  ⟨fun _ q => ⟨sboxCircuit_eval q, invAffineCircuit_eval q, xtCircuit_eval q⟩,
    fun _ _ _ _ hl hv hp => exec_toInstr_byGates hl hv hp,
    fun _ => codec_moves_bits,
    fun _ => exec_expand_byGates,
    count_trace_subBytes, count_trace_invSubBytes,
    fun count => ⟨nodup_codecMoves count, rfl, rfl, trace_mixColumns count, trace_invMixColumns count,
      trace_addRoundKey count, rfl, rfl, trace_encode count, trace_decode count⟩,
    counts_of_commands, evaluations_of_expand⟩

end Sys2Proof.Machine
end
